-- ==== Sys2Proof/Word.lean ====
section
/-! DEFINITION. The words of the machine: bytes, byte sequences, 16-byte blocks, 32-byte keys
(spec/00_scope.md section 4, rule R7). -/

namespace Sys2Proof

/-- A byte, `0..255`; bit 7 is the most significant (spec/00_scope.md section 4). -/
abbrev Byte := BitVec 8

/-- A byte sequence; index 0 is the first byte transmitted (spec/00_scope.md section 4, rule R29). -/
abbrev Bytes := List Byte

/-- A 16-byte block, held as the 128-bit number `be128` of its bytes: byte 0 is the most significant
byte (rules R7, R30, R70). The `XOR` of two blocks is `^^^`. -/
abbrev Block := BitVec 128

/-- A 32-byte key, held as the 256-bit number `be` of its bytes (rules R7, R70). -/
abbrev Key := BitVec 256

end Sys2Proof
end

