-- ==== Sys2Proof/Machine/Bytes.lean ====
section
/-! DEFINITION. Byte order: integers, blocks and keys as byte sequences, all big-endian (rules R29 to
R31), and access to an operand sequence by index (rule R26). -/

namespace Sys2Proof.Machine

/-- `be(s)`: the integer whose big-endian bytes are `s` (spec/00_scope.md section 4). -/
def be : Bytes → Nat
  | [] => 0
  | b :: s => b.toNat * 256 ^ s.length + be s

/-- `bytes_be(v, n)`: the `n` big-endian bytes of `v` (spec/00_scope.md section 4); of a `v` that needs
more, the low ones. -/
def bytesBe (v : Nat) : Nat → Bytes
  | 0 => []
  | n + 1 => BitVec.ofNat 8 (v / 256 ^ n) :: bytesBe v n

/-- `MemRead(seq, i, n)`: bytes `seq[i .. i+n-1]` of an operand sequence (rule R26). -/
def memRead (s : Bytes) (i n : Nat) : Bytes := (s.drop i).take n

/-- The block whose byte sequence is `s` (rule R70: the primitive sees the operand's byte order). -/
def blockOfBytes (s : Bytes) : Block := BitVec.ofNat 128 (be s)

/-- The 16 bytes of a block. -/
def bytesOfBlock (b : Block) : Bytes := bytesBe b.toNat 16

/-- The key whose byte sequence is `s`. -/
def keyOfBytes (s : Bytes) : Key := BitVec.ofNat 256 (be s)

/-- The 32 bytes of a key. -/
def bytesOfKey (k : Key) : Bytes := bytesBe k.toNat 32

/-- Byte `k` of a block, byte 0 the most significant. -/
def blockByte (b : Block) (k : Fin 16) : Byte := b.extractLsb' (8 * (15 - k.val)) 8

/-- `blk(s, i)`: bytes `16*i .. 16*i+15` of `s` as a block (spec/00_scope.md section 4, rule R29). -/
def blk (s : Bytes) (i : Nat) : Block := blockOfBytes (memRead s (16 * i) 16)

/-- The whole blocks of a sequence in order: the reads `MemRead(data, 16*i, 16)` for
`i = 0 .. len(data)/16 - 1` (rule R26). -/
def blocksOf (s : Bytes) : List Block := (List.range (s.length / 16)).map (blk s)

/-- The result sequence that `MemWrite(out, 16*i, 16, c_i)` builds from the blocks in order
(rule R26). -/
def bytesOfBlocks (bs : List Block) : Bytes := bs.flatMap bytesOfBlock

end Sys2Proof.Machine
end

