-- ==== Sys2Proof/Machine/Aes256.lean ====
section
/-! DEFINITION. AES-256, the default instantiation of the block cipher primitive
(spec/47_aes256_instantiation.md, rules R130 to R136). -/

namespace Sys2Proof

/-- Four bytes: a column `s[0..3][c]` of the cipher's state, or a word `w[i]` of the key schedule
(rules R130, R132). -/
structure AesWord where
  b0 : Byte
  b1 : Byte
  b2 : Byte
  b3 : Byte
  deriving DecidableEq, Repr

/-- The 4-by-4 state of bytes, column by column (rule R130). -/
structure AesBlock where
  c0 : AesWord
  c1 : AesWord
  c2 : AesWord
  c3 : AesWord
  deriving DecidableEq, Repr

namespace Machine

/-- Multiplication by 2 in GF(2^8) with polynomial `0x11B` (rule R130). -/
def xtime (a : Byte) : Byte := (a <<< 1) ^^^ (if 0x80 ≤ a.toNat then 0x1B else 0)

/-- `a • b`: the sum of the `xtime`-powers of `a` at the set bits of `b`, of which the low `n` are
looked at (rule R130). -/
def gfMulBits : Nat → Byte → Byte → Byte
  | 0, _, _ => 0
  | n + 1, a, b => (if b.toNat % 2 = 1 then a else 0) ^^^ gfMulBits n (xtime a) (b >>> 1)

/-- `a • b`, the product in GF(2^8) (rule R130). -/
def gfMul (a b : Byte) : Byte := gfMulBits 8 a b

/-- The rows of `SBOX`: row `r` holds `SBOX[16*r .. 16*r+15]`, the first of them on the left
(rule R131). -/
def sboxRows : List Nat :=
  [0x637c777bf26b6fc53001672bfed7ab76, 0xca82c97dfa5947f0add4a2af9ca472c0,
   0xb7fd9326363ff7cc34a5e5f171d83115, 0x04c723c31896059a071280e2eb27b275,
   0x09832c1a1b6e5aa0523bd6b329e32f84, 0x53d100ed20fcb15b6acbbe394a4c58cf,
   0xd0efaafb434d338545f9027f503c9fa8, 0x51a3408f929d38f5bcb6da2110fff3d2,
   0xcd0c13ec5f974417c4a77e3d645d1973, 0x60814fdc222a908846eeb814de5e0bdb,
   0xe0323a0a4906245cc2d3ac629195e479, 0xe7c8376d8dd54ea96c56f4ea657aae08,
   0xba78252e1ca6b4c6e8dd741f4bbd8b8a, 0x703eb5664803f60e613557b986c11d9e,
   0xe1f8981169d98e949b1e87e9ce5528df, 0x8ca1890dbfe6426841992d0fb054bb16]

/-- The rows of `INV_SBOX` (rule R131). -/
def invSboxRows : List Nat :=
  [0x52096ad53036a538bf40a39e81f3d7fb, 0x7ce339829b2fff87348e4344c4dee9cb,
   0x547b9432a6c2233dee4c950b42fac34e, 0x082ea16628d924b2765ba2496d8bd125,
   0x72f8f66486689816d4a45ccc5d65b692, 0x6c704850fdedb9da5e154657a78d9d84,
   0x90d8ab008cbcd30af7e45805b8b34506, 0xd02c1e8fca3f0f02c1afbd0301138a6b,
   0x3a9111414f67dcea97f2cfcef0b4e673, 0x96ac7422e7ad3585e2f937e81c75df6e,
   0x47f11a711d29c5896fb7620eaa18be1b, 0xfc563e4bc6d279209adbc0fe78cd5af4,
   0x1fdda8338807c731b11210592780ec5f, 0x60517fa919b54a0d2de57a9f93c99cef,
   0xa0e03b4dae2af5b0c8ebbb3c83539961, 0x172b047eba77d626e169146355210c7d]

/-- Entry `a` of a table of 16 rows of 16 bytes: row the high, column the low hex digit of `a`. -/
def tableByte (rows : List Nat) (a : Byte) : Byte :=
  BitVec.ofNat 8 (rows.getD (a.toNat / 16) 0 >>> (8 * (15 - a.toNat % 16)))

/-- `SBOX[a]` (rule R131). -/
def sbox (a : Byte) : Byte := tableByte sboxRows a

/-- `INV_SBOX[a]` (rule R131). -/
def invSbox (a : Byte) : Byte := tableByte invSboxRows a

/-- `XOR` of two words, byte by byte. -/
def xorWord (v w : AesWord) : AesWord :=
  ⟨v.b0 ^^^ w.b0, v.b1 ^^^ w.b1, v.b2 ^^^ w.b2, v.b3 ^^^ w.b3⟩

/-- `RotWord` (rule R132). -/
def rotWord (w : AesWord) : AesWord := ⟨w.b1, w.b2, w.b3, w.b0⟩

/-- `SubWord` (rule R132). -/
def subWord (w : AesWord) : AesWord := ⟨sbox w.b0, sbox w.b1, sbox w.b2, sbox w.b3⟩

/-- The word whose bytes are `s[i .. i+3]`. -/
def wordAt (s : Bytes) (i : Nat) : AesWord :=
  ⟨s.getD i 0, s.getD (i + 1) 0, s.getD (i + 2) 0, s.getD (i + 3) 0⟩

/-- `RC[j]` for `j = 1 .. 7`: 1 doubled `j - 1` times (rule R132). -/
def roundConstant : Nat → Byte
  | 0 => 0
  | 1 => 1
  | j + 2 => xtime (roundConstant (j + 1))

/-- What is added to `w[i-8]` to make `w[i]`, from `w[i-1]` (rule R132). -/
def scheduleTerm (i : Nat) (t : AesWord) : AesWord :=
  if i % 8 = 0 then xorWord (subWord (rotWord t)) ⟨roundConstant (i / 8), 0, 0, 0⟩
  else if i % 8 = 4 then subWord t
  else t

/-- The next `n` words after the `i` words of `ws`, which holds the latest first: `w[i-1]` is at 0,
`w[i-8]` at 7 (rule R132). -/
def expandWords : Nat → Nat → List AesWord → List AesWord
  | 0, _, ws => ws
  | n + 1, i, ws =>
    expandWords n (i + 1)
      (xorWord (ws.getD 7 ⟨0, 0, 0, 0⟩) (scheduleTerm i (ws.getD 0 ⟨0, 0, 0, 0⟩)) :: ws)

/-- The 60 words `w[0..59]` of a key (rules R130, R132). -/
def keySchedule (k : Key) : List AesWord :=
  let s := bytesOfKey k
  (expandWords 52 8 ((List.range 8).map fun i => wordAt s (4 * (7 - i)))).reverse

/-- Round key `r`, whose column `c` is `w[4r + c]` (rule R132). -/
def roundKey (w : List AesWord) (r : Nat) : AesBlock :=
  ⟨w.getD (4 * r) ⟨0, 0, 0, 0⟩, w.getD (4 * r + 1) ⟨0, 0, 0, 0⟩, w.getD (4 * r + 2) ⟨0, 0, 0, 0⟩,
    w.getD (4 * r + 3) ⟨0, 0, 0, 0⟩⟩

/-- The state of a block: `s[r][c] = b[4*c + r]` (rule R130). -/
def aesOfBlock (b : Block) : AesBlock :=
  ⟨⟨blockByte b 0, blockByte b 1, blockByte b 2, blockByte b 3⟩,
   ⟨blockByte b 4, blockByte b 5, blockByte b 6, blockByte b 7⟩,
   ⟨blockByte b 8, blockByte b 9, blockByte b 10, blockByte b 11⟩,
   ⟨blockByte b 12, blockByte b 13, blockByte b 14, blockByte b 15⟩⟩

/-- A word as 32 bits, byte 0 the most significant. -/
def bitsOfWord (w : AesWord) : BitVec 32 := w.b0 ++ w.b1 ++ w.b2 ++ w.b3

/-- The block of a state, read out column by column (rule R130). -/
def blockOfAes (s : AesBlock) : Block :=
  bitsOfWord s.c0 ++ bitsOfWord s.c1 ++ bitsOfWord s.c2 ++ bitsOfWord s.c3

/-- `AddRoundKey` (rule R133). -/
def addRoundKey (s k : AesBlock) : AesBlock :=
  ⟨xorWord s.c0 k.c0, xorWord s.c1 k.c1, xorWord s.c2 k.c2, xorWord s.c3 k.c3⟩

/-- `SubBytes` (rule R133). -/
def subBytes (s : AesBlock) : AesBlock := ⟨subWord s.c0, subWord s.c1, subWord s.c2, subWord s.c3⟩

/-- `ShiftRows`: `s'[row][c] = s[row][(c + row) mod 4]` (rule R133). -/
def shiftRows (s : AesBlock) : AesBlock :=
  ⟨⟨s.c0.b0, s.c1.b1, s.c2.b2, s.c3.b3⟩, ⟨s.c1.b0, s.c2.b1, s.c3.b2, s.c0.b3⟩,
   ⟨s.c2.b0, s.c3.b1, s.c0.b2, s.c1.b3⟩, ⟨s.c3.b0, s.c0.b1, s.c1.b2, s.c2.b3⟩⟩

/-- A column times the circulant matrix whose first row is `m0 m1 m2 m3` (rules R133, R135). -/
def mixWord (m0 m1 m2 m3 : Byte) (a : AesWord) : AesWord :=
  ⟨gfMul a.b0 m0 ^^^ gfMul a.b1 m1 ^^^ gfMul a.b2 m2 ^^^ gfMul a.b3 m3,
   gfMul a.b0 m3 ^^^ gfMul a.b1 m0 ^^^ gfMul a.b2 m1 ^^^ gfMul a.b3 m2,
   gfMul a.b0 m2 ^^^ gfMul a.b1 m3 ^^^ gfMul a.b2 m0 ^^^ gfMul a.b3 m1,
   gfMul a.b0 m1 ^^^ gfMul a.b1 m2 ^^^ gfMul a.b2 m3 ^^^ gfMul a.b3 m0⟩

/-- `MixColumns` (rule R133). -/
def mixColumns (s : AesBlock) : AesBlock :=
  ⟨mixWord 2 3 1 1 s.c0, mixWord 2 3 1 1 s.c1, mixWord 2 3 1 1 s.c2, mixWord 2 3 1 1 s.c3⟩

/-- `InvShiftRows`: `s'[row][c] = s[row][(c - row) mod 4]` (rule R135). -/
def invShiftRows (s : AesBlock) : AesBlock :=
  ⟨⟨s.c0.b0, s.c3.b1, s.c2.b2, s.c1.b3⟩, ⟨s.c1.b0, s.c0.b1, s.c3.b2, s.c2.b3⟩,
   ⟨s.c2.b0, s.c1.b1, s.c0.b2, s.c3.b3⟩, ⟨s.c3.b0, s.c2.b1, s.c1.b2, s.c0.b3⟩⟩

/-- Every byte of a word through `INV_SBOX`. -/
def invSubWord (w : AesWord) : AesWord := ⟨invSbox w.b0, invSbox w.b1, invSbox w.b2, invSbox w.b3⟩

/-- `InvSubBytes` (rule R135). -/
def invSubBytes (s : AesBlock) : AesBlock :=
  ⟨invSubWord s.c0, invSubWord s.c1, invSubWord s.c2, invSubWord s.c3⟩

/-- `InvMixColumns` (rule R135). -/
def invMixColumns (s : AesBlock) : AesBlock :=
  ⟨mixWord 0x0e 0x0b 0x0d 0x09 s.c0, mixWord 0x0e 0x0b 0x0d 0x09 s.c1,
   mixWord 0x0e 0x0b 0x0d 0x09 s.c2, mixWord 0x0e 0x0b 0x0d 0x09 s.c3⟩

/-- Rounds `r, r+1, .. , r+n-1` of the cipher, each with `MixColumns` (rule R134). -/
def encryptRounds (w : List AesWord) : Nat → Nat → AesBlock → AesBlock
  | 0, _, s => s
  | n + 1, r, s =>
    encryptRounds w n (r + 1) (addRoundKey (mixColumns (shiftRows (subBytes s))) (roundKey w r))

/-- Rounds `n, n-1, .. , 1` of the inverse cipher (rule R135). -/
def decryptRounds (w : List AesWord) : Nat → AesBlock → AesBlock
  | 0, s => s
  | n + 1, s =>
    decryptRounds w n
      (invMixColumns (addRoundKey (invSubBytes (invShiftRows s)) (roundKey w (n + 1))))

/-- `E(key, block)` for AES-256 (rule R134). -/
def aesEncrypt (k : Key) (b : Block) : Block :=
  let w := keySchedule k
  let s := encryptRounds w 13 1 (addRoundKey (aesOfBlock b) (roundKey w 0))
  blockOfAes (addRoundKey (shiftRows (subBytes s)) (roundKey w 14))

/-- `D(key, block)` for AES-256 (rule R135). -/
def aesDecrypt (k : Key) (b : Block) : Block :=
  let w := keySchedule k
  let s := decryptRounds w 13 (addRoundKey (aesOfBlock b) (roundKey w 14))
  blockOfAes (addRoundKey (invSubBytes (invShiftRows s)) (roundKey w 0))

end Machine

end Sys2Proof
end

