-- ==== Sys2Proof/Config.lean ====
section
/-! DEFINITION. What an implementation fixes (rule R8) and the free values. A constant declared
`opaque` has no body: nothing can be proved of its value beyond its type. -/

namespace Sys2Proof.Config

/-- `KEY_BYTES` (rule R7). -/
abbrev keyBytes : Nat := 32
/-- `BLOCK_BYTES` (rule R7). -/
abbrev blockBytes : Nat := 16
/-- `IGE_IV_BYTES` (rule R7). -/
abbrev igeIvBytes : Nat := 32
/-- `CTR_IV_BYTES` (rule R7). -/
abbrev ctrIvBytes : Nat := 16
/-- `CBC_IV_BYTES` (rule R7). -/
abbrev cbcIvBytes : Nat := 16
/-- `FACTOR_BYTES`, the width of the factorizer's integers (rules R8, R121). -/
abbrev factorBytes : Nat := 8

/-- `N_CTX - 1`, left open by the spec within `1 <= N_CTX <= 256` (rule R8). -/
opaque nCtxLessOne : Fin 256

/-- `N_CTX`, the number of context slots that the reset state has: any number from 1 to 256
(rules R8, R13). The machine itself reads the number off the slot file's length, so that a statement
about every state is one about every `N_CTX`. -/
def nCtx : Nat := nCtxLessOne.val + 1

/-- `FACTOR_BUDGET`, left open by the spec (rule R8): `none` is an infinite budget. -/
opaque factorBudget : Option Nat

/-- Which random source (seed, constants, injected generator) the factorizer of the reset state draws
from, left open by the spec (rules R21, R126, entry U8). Being one constant, it is the same source for
every engine that stands at the reset state: DESIGN CHOICE, log entry 4. -/
opaque randomSource : Nat

/-- The block ciphers an implementation may be built over, beside the two that the spec writes out:
family `n` gives for each key a permutation of the blocks, and nothing else is known of it (rules R8,
R71, R74). -/
opaque cipherPerm : Nat → Key → Equiv.Perm Block

end Sys2Proof.Config

namespace Sys2Proof

/-- What the factorizer's random source and constants, which the spec leaves free, make of one search
(rules R123 to R126, entries U5 to U8). -/
inductive FactorDraw where
  /-- The search ends at a divisor: number `k` (modulo how many there are) in rising order. -/
  | finds (k : Nat)
  /-- The search comes to the end of its budget. -/
  | exhausts
  /-- The search cycles and finds nothing. -/
  | cycles
  deriving DecidableEq, Repr, Inhabited

/-- The free value of rule R126: `factorDraw r n pq` is draw number `n` of random source `r`, on the
integer `pq` (entry U8). Two engines draw alike where source, number and input are alike; whether their
sources are alike is a matter of their parameters, which the spec leaves open: DESIGN CHOICE, log
entry 4. -/
opaque Config.factorDraw : Nat → Nat → Nat → FactorDraw

end Sys2Proof
end

