-- ==== Sys2Proof/Machine/State.lean ====
section
/-! DEFINITION. What the machine holds between two steps, how a step can end, and the state after reset
(spec/10_state.md, spec/70_reset_and_hazards.md rule R160). -/

namespace Sys2Proof

/-- Which block cipher the primitive is: the parameter `CIPHER` (rules R8, R74). -/
inductive Cipher where
  /-- AES-256, the default instantiation (rules R74, R130 to R136). -/
  | aes256
  /-- The toy permutation of spec/95_test_vectors.md section 2. -/
  | toy16
  /-- Any other: family `n` of the constant `Config.cipherPerm`, of which nothing is known but that it
  gives each key a permutation of the blocks (rule R71). -/
  | other (n : Nat)
  deriving DecidableEq, Repr

namespace Machine

/-- A CTR State: the pair `(counter_iv, byte_offset)` (rules R11, R90). The offset is a byte that only
ever holds 0 to 15 (rules R12, R14, entry U3). -/
structure CtrState where
  /-- `counter_iv`: the counter block that is enciphered to make the current keystream block. -/
  counterIv : Block
  /-- `byte_offset`: how many bytes of the current keystream block are consumed. -/
  byteOffset : Fin 16
  deriving DecidableEq, Repr

/-- What an implementation fixes at build time: no command reads or writes it (rules R8, R17). -/
structure Params where
  /-- `CIPHER`. -/
  cipher : Cipher
  /-- `HAS_FACTORIZER`. -/
  hasFactorizer : Bool
  /-- `FACTOR_BUDGET`; `none` is an infinite budget. -/
  factorBudget : Option Nat
  /-- Which random source the factorizer draws from (rules R21, R126, entry U8). Engines with the same
  one draw alike: DESIGN CHOICE, log entry 4. -/
  randomSource : Nat
  deriving DecidableEq, Repr

/-- The state of one engine. -/
structure State where
  /-- The context slot file `CTX[0 .. N_CTX-1]` (rules R10, R13): slot `s` is entry `s`, and `N_CTX` is
  the list's length. A slot with `valid = 0` is `none` and holds no value (rule R13, entry U11). -/
  ctx : List (Option CtrState)
  /-- The bytes at the command port that have arrived and are not consumed yet (rules R46, R57). -/
  command : Bytes
  /-- The bytes sent at the response port that the host has not taken (rules R52, R54). -/
  response : Bytes
  /-- The engine executes a `FACTOR` that never completes (rule R124, entries U4 to U6). -/
  searching : Bool
  /-- The model's own: how many draws the factorizer's random source has given (rules R21, R126). -/
  draws : Nat
  /-- The implementation parameters (rule R8). -/
  params : Params
  deriving DecidableEq, Repr

/-- How a machine stops with a fault. There is no way: every error of the spec is a response, after
which the engine goes on to the next packet (rules R147, R148), so this type has no constructor. -/
inductive Fault where
  deriving DecidableEq, Repr

/-- Why a command is given no meaning. -/
inductive Refusal where
  /-- Raised by an arm of `exec` for a command that has no meaning in the model. No arm raises it: every
  row of the opcode table has its meaning. Safe: the model would stop where the hardware goes on. -/
  | notModelled (mnemonic : String)
  deriving DecidableEq, Repr

namespace State

/-- The machine after reset, built with `nCtx` context slots and the parameters `p`: every slot
invalid, the engine idle, no packet partly received, no response partly sent (rules R24, R160). -/
def resetWith (nCtx : Nat) (p : Params) : State :=
  { ctx := List.replicate nCtx none, command := [], response := [], searching := false, draws := 0,
    params := p }

/-- The machine right after reset (rule R24), with the spec's value of each parameter that has one:
AES-256 and no factorizer (rules R2, R8, R74); the number of slots, the budget and the random source are left open. -/
def reset : State :=
  resetWith Config.nCtx
    { cipher := .aes256, hasFactorizer := false, factorBudget := Config.factorBudget,
      randomSource := Config.randomSource }

end State

end Machine

end Sys2Proof
end

