-- ==== Sys2Proof/Machine/Cipher.lean ====
section
/-! DEFINITION. The block cipher primitive as the mode engine reaches it
(spec/40_block_cipher_interface.md), and TOY16 (spec/95_test_vectors.md section 2). -/

namespace Sys2Proof.Machine

/-- The direction of a request to the primitive (rule R73). -/
inductive Direction where
  | enc
  | dec
  deriving DecidableEq, Repr

/-- The key- and position-dependent constant of TOY16, `k[i] + k[16+i] + i` modulo 256. -/
def toyTerm (k : Key) (i : Nat) : Byte :=
  (bytesOfKey k).getD i 0 + (bytesOfKey k).getD (16 + i) 0 + BitVec.ofNat 8 i

/-- `E_toy(k, b)[i] = b[(i+1) mod 16] + k[i] + k[16+i] + i`. -/
def toyEncrypt (k : Key) (b : Block) : Block :=
  blockOfBytes ((List.range 16).map fun i => (bytesOfBlock b).getD ((i + 1) % 16) 0 + toyTerm k i)

/-- `D_toy(k, y)[j] = y[i] - k[i] - k[16+i] - i` with `i = (j+15) mod 16`. -/
def toyDecrypt (k : Key) (y : Block) : Block :=
  blockOfBytes ((List.range 16).map fun j =>
    (bytesOfBlock y).getD ((j + 15) % 16) 0 - toyTerm k ((j + 15) % 16))

/-- The reply of the primitive unit to the request `(dir, key, block)`: a pure total function of the
request (rules R72, R73). -/
def cipherUnit (c : Cipher) (dir : Direction) (k : Key) (b : Block) : Block :=
  match c, dir with
  | .aes256, .enc => aesEncrypt k b
  | .aes256, .dec => aesDecrypt k b
  | .toy16, .enc => toyEncrypt k b
  | .toy16, .dec => toyDecrypt k b
  | .other n, .enc => Config.cipherPerm n k b
  | .other n, .dec => (Config.cipherPerm n k).symm b

/-- `E(key, ·)` with the 32 bytes of a command's `key` (rules R70, R75). -/
def cipherE (c : Cipher) (key : Bytes) (b : Block) : Block := cipherUnit c .enc (keyOfBytes key) b

/-- `D(key, ·)` with the 32 bytes of a command's `key` (rules R70, R75). -/
def cipherD (c : Cipher) (key : Bytes) (b : Block) : Block := cipherUnit c .dec (keyOfBytes key) b

end Sys2Proof.Machine
end

