-- ==== Sys2Proof/Machine/Operands.lean ====
section
/-! DEFINITION. The operand forms: the length preconditions of each command and the parts of an IV
(spec/20_memory.md rules R25, R32, spec/60_exceptions.md rule R141, spec/41_ige.md rule R83). All
conditions are on the declared lengths. -/

namespace Sys2Proof.Machine

/-- `data` is a positive multiple of 16 bytes (rule R32). -/
def wholeBlocks (data : Bytes) : Bool :=
  decide (data.length ≠ 0) && decide (data.length % Config.blockBytes = 0)

/-- The lengths `IGE_ENC` and `IGE_DEC` accept (rules R80, R141). -/
def igeLengthsOk (key iv data : Bytes) : Bool :=
  wholeBlocks data && decide (key.length = Config.keyBytes) &&
    decide (iv.length = Config.igeIvBytes)

/-- The lengths `CBC_ENC` and `CBC_DEC` accept (rules R110, R141). -/
def cbcLengthsOk (key iv data : Bytes) : Bool :=
  wholeBlocks data && decide (key.length = Config.keyBytes) &&
    decide (iv.length = Config.cbcIvBytes)

/-- The length `CTR_NEW` accepts (rules R91, R141). -/
def ctrNewLengthOk (iv : Bytes) : Bool := decide (iv.length = Config.ctrIvBytes)

/-- The lengths `CTR_APPLY` accepts (rules R92, R141). -/
def ctrApplyLengthsOk (key data : Bytes) : Bool :=
  decide (data.length ≠ 0) && decide (key.length = Config.keyBytes)

/-- The length `FACTOR` accepts (rules R121, R141). -/
def factorLengthOk (data : Bytes) : Bool := decide (data.length = Config.factorBytes)

/-- `iv1 = iv[0..15]`, the half that seeds `prev_ct` (rule R83). -/
def igeIv1 (iv : Bytes) : Block := blockOfBytes (memRead iv 0 16)

/-- `iv2 = iv[16..31]`, the half that seeds `prev_pt` (rule R83). -/
def igeIv2 (iv : Bytes) : Block := blockOfBytes (memRead iv 16 16)

/-- `iv[0..15]`, the IV of CBC and of a CTR stream (rules R91, R111). -/
def ivBlock (iv : Bytes) : Block := blockOfBytes (memRead iv 0 16)

end Sys2Proof.Machine
end

