-- ==== Sys2Proof/Syntax.lean ====
section
/-! DEFINITION. The nine commands of spec/opcode_table.json, one constructor a row (rules R47, R48). -/

namespace Sys2Proof

/-- The mnemonics of the opcode map (rule R47). -/
inductive Mnemonic where
  | igeEnc | igeDec | ctrNew | ctrApply | ctrFree | ctrRead | cbcEnc | cbcDec | factor
  deriving DecidableEq, Repr

/-- A command, with the operands that its opcode takes (rule R48: the columns that are not "mbz").
A payload of any length a header can declare is an operand: a wrong length is an error that the
command reports, not a term that cannot be written (rule R25). -/
inductive Instr where
  /-- `IGE_ENC`, opcode `0x01` (rule R81). -/
  | igeEnc (key iv data : Bytes)
  /-- `IGE_DEC`, opcode `0x02` (rule R82). -/
  | igeDec (key iv data : Bytes)
  /-- `CTR_NEW`, opcode `0x03` (rule R91). -/
  | ctrNew (ctx : Byte) (iv : Bytes)
  /-- `CTR_APPLY`, opcode `0x04` (rules R92, R93). -/
  | ctrApply (ctx : Byte) (key data : Bytes)
  /-- `CTR_FREE`, opcode `0x05` (rule R102). -/
  | ctrFree (ctx : Byte)
  /-- `CTR_READ`, opcode `0x06` (rule R101). -/
  | ctrRead (ctx : Byte)
  /-- `CBC_ENC`, opcode `0x07` (rule R111). -/
  | cbcEnc (key iv data : Bytes)
  /-- `CBC_DEC`, opcode `0x08` (rule R112). -/
  | cbcDec (key iv data : Bytes)
  /-- `FACTOR`, opcode `0x09` (rules R121, R122). -/
  | factor (data : Bytes)
  deriving DecidableEq, Repr

namespace Instr

/-- The row of the opcode table a command belongs to. -/
def mnemonic : Instr → Mnemonic
  | igeEnc _ _ _ => .igeEnc
  | igeDec _ _ _ => .igeDec
  | ctrNew _ _ => .ctrNew
  | ctrApply _ _ _ => .ctrApply
  | ctrFree _ => .ctrFree
  | ctrRead _ => .ctrRead
  | cbcEnc _ _ _ => .cbcEnc
  | cbcDec _ _ _ => .cbcDec
  | factor _ => .factor

/-- The context handle the packet carries; 0 where the opcode takes none (rule R48). -/
def ctxField : Instr → Byte
  | ctrNew ctx _ => ctx
  | ctrApply ctx _ _ => ctx
  | ctrFree ctx => ctx
  | ctrRead ctx => ctx
  | igeEnc _ _ _ => 0
  | igeDec _ _ _ => 0
  | cbcEnc _ _ _ => 0
  | cbcDec _ _ _ => 0
  | factor _ => 0

/-- The `key` payload; empty where the opcode takes none (rule R48). -/
def key : Instr → Bytes
  | igeEnc key _ _ => key
  | igeDec key _ _ => key
  | ctrNew _ _ => []
  | ctrApply _ key _ => key
  | ctrFree _ => []
  | ctrRead _ => []
  | cbcEnc key _ _ => key
  | cbcDec key _ _ => key
  | factor _ => []

/-- The `iv` payload; empty where the opcode takes none (rule R48). -/
def iv : Instr → Bytes
  | igeEnc _ iv _ => iv
  | igeDec _ iv _ => iv
  | ctrNew _ iv => iv
  | ctrApply _ _ _ => []
  | ctrFree _ => []
  | ctrRead _ => []
  | cbcEnc _ iv _ => iv
  | cbcDec _ iv _ => iv
  | factor _ => []

/-- The `data` payload; empty where the opcode takes none (rule R48). -/
def data : Instr → Bytes
  | igeEnc _ _ data => data
  | igeDec _ _ data => data
  | ctrNew _ _ => []
  | ctrApply _ _ data => data
  | ctrFree _ => []
  | ctrRead _ => []
  | cbcEnc _ _ data => data
  | cbcDec _ _ data => data
  | factor data => data

end Instr

end Sys2Proof
end

