-- ==== Sys2Proof/WellFormed.lean ====
section
/-! DEFINITION. Which commands a packet can carry: every payload's length fits its header field
(rules R22, R45). Nothing else is a matter of form: a key of a wrong length is a well-formed command
that the engine answers with `InvalidLength`. -/

namespace Sys2Proof

/-- `KLEN` and `IVLEN` have 8 bits, `DLEN` has 32 (rule R45). -/
def Instr.wellFormed (i : Instr) : Bool :=
  decide (i.key.length < 2 ^ 8) && decide (i.iv.length < 2 ^ 8) && decide (i.data.length < 2 ^ 32)

end Sys2Proof
end

