-- ==== Sys2Proof/Decode.lean ====
section
/-! DEFINITION. The command packet: framing, the opcode map, must-be-zero fields, the decoder, and the
encoder (spec/30_encoding.md rules R45 to R51, R56, R58). -/

namespace Sys2Proof

open Sys2Proof.Machine

/-- The 8-byte header `[OP][CTX][KLEN][IVLEN][DLEN be32]` (rule R45). -/
structure Header where
  op : Byte
  ctx : Byte
  klen : Byte
  ivlen : Byte
  dlen : BitVec 32
  deriving DecidableEq, Repr

/-- A whole command packet: its header and its three payloads (rule R45). -/
structure Packet where
  header : Header
  key : Bytes
  iv : Bytes
  data : Bytes
  deriving DecidableEq, Repr

/-- Why a packet spells no command (rules R49, R50, R142). -/
inductive IllegalCause where
  /-- `OP` is `0x00` or `0x0A .. 0xFF`. -/
  | reservedOpcode
  /-- A field that must be zero for the opcode is not zero. -/
  | nonzeroField
  deriving DecidableEq, Repr

/-- What the decoder makes of the bytes received so far. -/
inductive Decoded where
  /-- A command, and the bytes after its packet. -/
  | command (i : Instr) (rest : Bytes)
  /-- A whole packet that spells no command: its `OP` byte, why, and the bytes after it. -/
  | illegal (op : Byte) (why : IllegalCause) (rest : Bytes)
  /-- Fewer bytes than the packet needs (rule R57). -/
  | incomplete
  deriving DecidableEq, Repr

/-- The `OP` byte of a mnemonic (rule R47). -/
def opByte : Mnemonic → Byte
  | .igeEnc => 0x01
  | .igeDec => 0x02
  | .ctrNew => 0x03
  | .ctrApply => 0x04
  | .ctrFree => 0x05
  | .ctrRead => 0x06
  | .cbcEnc => 0x07
  | .cbcDec => 0x08
  | .factor => 0x09

/-- The mnemonic an `OP` byte selects; `0x00` and `0x0A .. 0xFF` select none (rules R47, R50). Whether
the unit of `0x09` is present is asked by the command itself, which answers the same status. -/
def mnemonicOf (op : Byte) : Option Mnemonic :=
  match op.toNat with
  | 1 => some .igeEnc
  | 2 => some .igeDec
  | 3 => some .ctrNew
  | 4 => some .ctrApply
  | 5 => some .ctrFree
  | 6 => some .ctrRead
  | 7 => some .cbcEnc
  | 8 => some .cbcDec
  | 9 => some .factor
  | _ => none

/-- Every field that is "mbz" for the mnemonic is zero (rules R48, R49). -/
def mbzClear (m : Mnemonic) (h : Header) : Bool :=
  match m with
  | .igeEnc => h.ctx == 0
  | .igeDec => h.ctx == 0
  | .ctrNew => h.klen == 0 && h.dlen == 0
  | .ctrApply => h.ivlen == 0
  | .ctrFree => h.klen == 0 && h.ivlen == 0 && h.dlen == 0
  | .ctrRead => h.klen == 0 && h.ivlen == 0 && h.dlen == 0
  | .cbcEnc => h.ctx == 0
  | .cbcDec => h.ctx == 0
  | .factor => h.ctx == 0 && h.klen == 0 && h.ivlen == 0

/-- The header word `H`, the header's 8 bytes as one big-endian number (rule R45). -/
def headerWord (h : Header) : BitVec 64 := h.op ++ h.ctx ++ h.klen ++ h.ivlen ++ h.dlen

/-- The `mask` column of the opcode table (rule R51). -/
def rowMask : Mnemonic → BitVec 64
  | .igeEnc => 0xFFFF000000000000
  | .igeDec => 0xFFFF000000000000
  | .ctrNew => 0xFF00FF00FFFFFFFF
  | .ctrApply => 0xFF0000FF00000000
  | .ctrFree => 0xFF00FFFFFFFFFFFF
  | .ctrRead => 0xFF00FFFFFFFFFFFF
  | .cbcEnc => 0xFFFF000000000000
  | .cbcDec => 0xFFFF000000000000
  | .factor => 0xFFFFFFFF00000000

/-- The `match` column of the opcode table (rule R51). -/
def rowMatch : Mnemonic → BitVec 64
  | .igeEnc => 0x0100000000000000
  | .igeDec => 0x0200000000000000
  | .ctrNew => 0x0300000000000000
  | .ctrApply => 0x0400000000000000
  | .ctrFree => 0x0500000000000000
  | .ctrRead => 0x0600000000000000
  | .cbcEnc => 0x0700000000000000
  | .cbcDec => 0x0800000000000000
  | .factor => 0x0900000000000000

/-- How many payload bytes a header declares, whatever its opcode (rule R46). -/
def payloadLength (h : Header) : Nat := h.klen.toNat + h.ivlen.toNat + h.dlen.toNat

/-- Reads the 8 header bytes, once they are there (rules R45, R56 step 1). -/
def readHeader : Bytes → Option (Header × Bytes)
  | b0 :: b1 :: b2 :: b3 :: b4 :: b5 :: b6 :: b7 :: rest =>
    some (⟨b0, b1, b2, b3, BitVec.ofNat 32 (be [b4, b5, b6, b7])⟩, rest)
  | _ => none

/-- Cuts the declared payloads off the bytes after the header: `key`, `iv`, `data` in this order
(rule R45). -/
def cutPayloads (h : Header) (bs : Bytes) : Packet × Bytes :=
  (⟨h, bs.take h.klen.toNat, (bs.drop h.klen.toNat).take h.ivlen.toNat,
      (bs.drop (h.klen.toNat + h.ivlen.toNat)).take h.dlen.toNat⟩,
    bs.drop (payloadLength h))

/-- Receives one whole packet of `8 + KLEN + IVLEN + DLEN` bytes; none while bytes are missing
(rules R46, R56 step 1, R57). -/
def receivePacket (bs : Bytes) : Option (Packet × Bytes) :=
  match readHeader bs with
  | none => none
  | some (h, rest) => if rest.length < payloadLength h then none else some (cutPayloads h rest)

/-- The command of a mnemonic with a packet's operands. -/
def commandOf (m : Mnemonic) (p : Packet) : Instr :=
  match m with
  | .igeEnc => .igeEnc p.key p.iv p.data
  | .igeDec => .igeDec p.key p.iv p.data
  | .ctrNew => .ctrNew p.header.ctx p.iv
  | .ctrApply => .ctrApply p.header.ctx p.key p.data
  | .ctrFree => .ctrFree p.header.ctx
  | .ctrRead => .ctrRead p.header.ctx
  | .cbcEnc => .cbcEnc p.key p.iv p.data
  | .cbcDec => .cbcDec p.key p.iv p.data
  | .factor => .factor p.data

/-- Reads a whole packet: the opcode first, then its must-be-zero fields (rule R56 steps 2 and 3). -/
def readPacket (p : Packet) : Except IllegalCause Instr :=
  match mnemonicOf p.header.op with
  | none => .error .reservedOpcode
  | some m => if mbzClear m p.header then .ok (commandOf m p) else .error .nonzeroField

/-- Decodes the first packet of a command stream (rules R46, R56). -/
def decode (bs : Bytes) : Decoded :=
  match receivePacket bs with
  | none => .incomplete
  | some (p, rest) =>
    match readPacket p with
    | .ok i => .command i rest
    | .error why => .illegal p.header.op why rest

/-- The assembler of rule R58: the packet of an `OP` byte and operands, the length fields set to the
operands' lengths and nothing checked, so that every erroneous command can be written. -/
def assemble (op ctx : Byte) (key iv data : Bytes) : Bytes :=
  [op, ctx, BitVec.ofNat 8 key.length, BitVec.ofNat 8 iv.length] ++ bytesBe data.length 4 ++
    (key ++ (iv ++ data))

/-- The packet of a command (rules R45, R47, R48). -/
def encode (i : Instr) : Bytes := assemble (opByte i.mnemonic) i.ctxField i.key i.iv i.data

/-- The packet whose bits are `w` as spec/opcode_table.json numbers them: the first 64 bits are the
header word `H` of rule R45, stored most significant byte first; the bits above them are the payload's
bytes in order, zero beyond `nbits`, as many as the header declares. -/
def tablePacket (nbits w : Nat) : Bytes :=
  let v := w % 2 ^ nbits
  let header := bytesBe (v % 2 ^ 64) 8
  match readHeader header with
  | none => header
  | some (h, _) =>
    header ++ (List.range (payloadLength h)).map fun k => BitVec.ofNat 8 (v >>> (64 + 8 * k))

/-- The instruction the decoder reads from a word of the opcode table. -/
def decodeTableWord (nbits w : Nat) : Option Instr :=
  match decode (tablePacket nbits w) with
  | .command i _ => some i
  | .illegal _ _ _ => none
  | .incomplete => none

end Sys2Proof
end

