-- ==== Sys2Proof/Machine/Ops.lean ====
section
/-! DEFINITION. The operations all commands share: context slots, responses, raising an error
(spec/10_state.md, spec/30_encoding.md section 3, spec/60_exceptions.md). -/

namespace Sys2Proof.Machine

/-- The outcomes a response can report (rule R53). -/
inductive Status where
  | ok
  | invalidLength
  | notFactorable
  | illegalCommand
  | badContext
  deriving DecidableEq, Repr

/-- The `STATUS` byte (rule R53). -/
def statusByte : Status → Byte
  | .ok => 0x00
  | .invalidLength => 0x01
  | .notFactorable => 0x02
  | .illegalCommand => 0x80
  | .badContext => 0x81

/-- The response packet `[OP][STATUS][00 00][RLEN be32][result]` (rules R31, R52). -/
def responsePacket (op : Byte) (st : Status) (result : Bytes) : Bytes :=
  [op, statusByte st, 0, 0] ++ bytesBe result.length 4 ++ result

namespace State

/-- Sends a response: the packet follows what the port already holds (rules R52, R54). -/
def respond (s : State) (op : Byte) (st : Status) (result : Bytes) : State :=
  { s with response := s.response ++ responsePacket op st result }

/-- `raise X`, the machine's one way of taking an exception: a response with that status and no result
byte, and no other effect (rules R37, R144, R147). There is nothing to save and nothing to return to
(rule R148): the engine goes on with the next packet. -/
def raise (s : State) (op : Byte) (st : Status) : State := s.respond op st []

/-- Takes the bytes of a received packet off the command port, leaving `rest` (rule R46). -/
def consumeTo (s : State) (rest : Bytes) : State := { s with command := rest }

/-- `CTX[ctx]`: `none` if `ctx >= N_CTX`, `some none` if the slot is invalid, `some (some c)` if it
holds the CTR State `c` (rules R13, R35). -/
def slot? (s : State) (ctx : Byte) : Option (Option CtrState) := s.ctx[ctx.toNat]?

/-- `CTX[ctx] <- v` (rule R13). -/
def setSlot (s : State) (ctx : Byte) (v : Option CtrState) : State :=
  { s with ctx := s.ctx.set ctx.toNat v }

/-- Takes one draw from the factorizer's random source (rule R126). -/
def countDraw (s : State) : State := { s with draws := s.draws + 1 }

/-- The engine stays in a search that never completes (rule R124). -/
def searchForever (s : State) : State := { s with searching := true }

end State

end Sys2Proof.Machine
end

