-- ==== Sys2Proof/Machine/Cbc.lean ====
section
/-! DEFINITION. `CBC_ENC` and `CBC_DEC` (spec/43_cbc.md). -/

namespace Sys2Proof.Machine

/-- The loop of `CBC_ENC` over the blocks of `data` (rule R111). -/
def cbcEncBlocks (E : Block → Block) : List Block → Block → List Block
  | [], _ => []
  | m :: ms, prev =>
    let c := E (m ^^^ prev)
    c :: cbcEncBlocks E ms c

/-- The loop of `CBC_DEC` over the blocks of `data`; the chaining value is the ciphertext block
(rule R112). -/
def cbcDecBlocks (D : Block → Block) : List Block → Block → List Block
  | [], _ => []
  | c :: cs, prev =>
    let m := D c ^^^ prev
    m :: cbcDecBlocks D cs c

/-- The result of `CBC_ENC` (rule R111). -/
def cbcEncrypt (E : Block → Block) (iv data : Bytes) : Bytes :=
  bytesOfBlocks (cbcEncBlocks E (blocksOf data) (ivBlock iv))

/-- The result of `CBC_DEC` (rule R112). -/
def cbcDecrypt (D : Block → Block) (iv data : Bytes) : Bytes :=
  bytesOfBlocks (cbcDecBlocks D (blocksOf data) (ivBlock iv))

/-- `CBC_ENC` (rules R110, R111). -/
def execCbcEnc (key iv data : Bytes) (s : State) : Host.Outcome State Fault Refusal :=
  if cbcLengthsOk key iv data then
    .next (s.respond (opByte .cbcEnc) .ok (cbcEncrypt (cipherE s.params.cipher key) iv data))
  else .next (s.raise (opByte .cbcEnc) .invalidLength)

/-- `CBC_DEC` (rules R110, R112). -/
def execCbcDec (key iv data : Bytes) (s : State) : Host.Outcome State Fault Refusal :=
  if cbcLengthsOk key iv data then
    .next (s.respond (opByte .cbcDec) .ok (cbcDecrypt (cipherD s.params.cipher key) iv data))
  else .next (s.raise (opByte .cbcDec) .invalidLength)

end Sys2Proof.Machine
end

