-- ==== Sys2Proof/Machine/Ctr.lean ====
section
/-! DEFINITION. `CTR_NEW`, `CTR_APPLY`, `CTR_READ`, `CTR_FREE` (spec/42_ctr.md). Each names a slot: a
handle that names none, or a slot whose validity is not what the command needs, is `BadContext`, before
any length is looked at (spec/60_exceptions.md rules R143, R145). -/

namespace Sys2Proof.Machine

/-- `inc128(c)`: addition of 1 to the big-endian 128-bit integer, modulo `2^128` (rule R95). -/
def inc128 (c : Block) : Block := c + 1

/-- The loop of `CTR_APPLY` over the bytes of `data`, with the keystream block `ks`, the counter `ctr`
and the offset `off`: the result bytes and the CTR State at the end (rules R93, R94). -/
def ctrLoop (E : Block → Block) : Bytes → Block → Block → Fin 16 → Bytes × CtrState
  | [], _, ctr, off => ([], ⟨ctr, off⟩)
  | d :: ds, ks, ctr, off =>
    let ks' := if off = 0 then E ctr else ks
    let off' := off + 1
    let ctr' := if off' = 0 then inc128 ctr else ctr
    let r := ctrLoop E ds ks' ctr' off'
    ((d ^^^ blockByte ks' off) :: r.1, r.2)

/-- `CTR_APPLY` on a CTR State: the keystream block on entry is `E(key, counter_iv)`, from the key of
this command (rules R93, R97, R104). -/
def ctrTransform (E : Block → Block) (c : CtrState) (data : Bytes) : Bytes × CtrState :=
  ctrLoop E data (E c.counterIv) c.counterIv c.byteOffset

/-- The result of `CTR_READ`: `counter_iv ++ [byte_offset]` (rules R55, R101). -/
def ctrReadout (c : CtrState) : Bytes :=
  bytesOfBlock c.counterIv ++ [BitVec.ofNat 8 c.byteOffset.val]

/-- `CTR_NEW` (rules R91, R143). -/
def execCtrNew (ctx : Byte) (iv : Bytes) (s : State) : Host.Outcome State Fault Refusal :=
  match s.slot? ctx with
  | none => .next (s.raise (opByte .ctrNew) .badContext)
  | some (some _) => .next (s.raise (opByte .ctrNew) .badContext)
  | some none =>
    if ctrNewLengthOk iv then
      .next ((s.setSlot ctx (some ⟨ivBlock iv, 0⟩)).respond (opByte .ctrNew) .ok [])
    else .next (s.raise (opByte .ctrNew) .invalidLength)

/-- `CTR_APPLY` (rules R92, R93, R143). -/
def execCtrApply (ctx : Byte) (key data : Bytes) (s : State) : Host.Outcome State Fault Refusal :=
  match s.slot? ctx with
  | none => .next (s.raise (opByte .ctrApply) .badContext)
  | some none => .next (s.raise (opByte .ctrApply) .badContext)
  | some (some c) =>
    if ctrApplyLengthsOk key data then
      let r := ctrTransform (cipherE s.params.cipher key) c data
      .next ((s.setSlot ctx (some r.2)).respond (opByte .ctrApply) .ok r.1)
    else .next (s.raise (opByte .ctrApply) .invalidLength)

/-- `CTR_FREE`: the slot loses its value (rules R102, R143). -/
def execCtrFree (ctx : Byte) (s : State) : Host.Outcome State Fault Refusal :=
  match s.slot? ctx with
  | none => .next (s.raise (opByte .ctrFree) .badContext)
  | some none => .next (s.raise (opByte .ctrFree) .badContext)
  | some (some _) => .next ((s.setSlot ctx none).respond (opByte .ctrFree) .ok [])

/-- `CTR_READ` (rules R101, R143). -/
def execCtrRead (ctx : Byte) (s : State) : Host.Outcome State Fault Refusal :=
  match s.slot? ctx with
  | none => .next (s.raise (opByte .ctrRead) .badContext)
  | some none => .next (s.raise (opByte .ctrRead) .badContext)
  | some (some c) => .next (s.respond (opByte .ctrRead) .ok (ctrReadout c))

end Sys2Proof.Machine
end

