-- ==== Sys2Proof/Machine/Factor.lean ====
section
/-! DEFINITION. `FACTOR`, the optional factorizer (spec/44_factorizer.md,
spec/93_implementation_defined.md entries U4 to U8). -/

namespace Sys2Proof.Machine

/-- How a search ends (rules R122, R124, R125). -/
inductive FactorOutcome where
  /-- A pair `(p, q)`, the status `OK`. -/
  | pair (p q : Nat)
  /-- The budget is exhausted. -/
  | notFactorable
  /-- Never. -/
  | neverCompletes
  deriving DecidableEq, Repr

/-- The `g` with `1 < g < pq` and `pq mod g == 0`, in rising order (rule R122). -/
def properDivisors (pq : Nat) : List Nat :=
  (List.range pq).filter fun g => decide (1 < g) && decide (pq % g = 0)

/-- `pq` is the product of two distinct primes, the inputs for which a result is promised (rules R122,
R127): its only proper divisors are two, and each of them has none. -/
def twoDistinctPrimes (pq : Nat) : Bool :=
  match properDivisors pq with
  | [p, q] => (properDivisors p).isEmpty && (properDivisors q).isEmpty
  | _ => false

/-- The ordered pair of a divisor `g`: `p <- min(g, pq / g)`, `q <- max(g, pq / g)` (rule R122). -/
def orderedPair (pq g : Nat) : FactorOutcome := .pair (min g (pq / g)) (max g (pq / g))

/-- What a search that finds no factor comes to: `NotFactorable` when the budget is finite, no response
ever when it is not (rules R124, R125, entry U4). -/
def noFactorFound (budget : Option Nat) : FactorOutcome :=
  if budget.isSome then .notFactorable else .neverCompletes

/-- The outcomes the spec allows, one for each draw from the random source (rules R122 to R127):
no pair meets the contract, U4; the product of two distinct primes, R122 and R125; all others, U5
and U6. -/
def factorOutcome (budget : Option Nat) (draw : FactorDraw) (pq : Nat) : FactorOutcome :=
  match properDivisors pq with
  | [] => noFactorFound budget
  | g :: gs =>
    match draw with
    | .finds k => orderedPair pq ((g :: gs).getD (k % (g :: gs).length) g)
    | .exhausts =>
      if twoDistinctPrimes pq && budget.isNone then orderedPair pq g else noFactorFound budget
    | .cycles =>
      if twoDistinctPrimes pq then
        if budget.isNone then orderedPair pq g else .notFactorable
      else .neverCompletes

/-- The result of `FACTOR`: `bytes_be(p, 8) ++ bytes_be(q, 8)` (rules R55, R121). -/
def factorResult (p q : Nat) : Bytes := bytesBe p Config.factorBytes ++ bytesBe q Config.factorBytes

/-- `FACTOR` (rules R120 to R127). Without the unit its opcode is illegal (rules R50, R120). -/
def execFactor (data : Bytes) (s : State) : Host.Outcome State Fault Refusal :=
  if s.params.hasFactorizer then
    if factorLengthOk data then
      match factorOutcome s.params.factorBudget
          (Config.factorDraw s.params.randomSource s.draws (be data)) (be data) with
      | .pair p q => .next (s.countDraw.respond (opByte .factor) .ok (factorResult p q))
      | .notFactorable => .next (s.countDraw.raise (opByte .factor) .notFactorable)
      | .neverCompletes => .next s.countDraw.searchForever
    else .next (s.raise (opByte .factor) .invalidLength)
  else .next (s.raise (opByte .factor) .illegalCommand)

end Sys2Proof.Machine
end

