-- ==== Sys2Proof/Machine/Ige.lean ====
section
/-! DEFINITION. `IGE_ENC` and `IGE_DEC` (spec/41_ige.md). -/

namespace Sys2Proof.Machine

/-- The loop of `IGE_ENC` over the blocks of `data` with `prev_ct` and `prev_pt` (rule R81). -/
def igeEncBlocks (E : Block → Block) : List Block → Block → Block → List Block
  | [], _, _ => []
  | m :: ms, prevCt, prevPt =>
    let c := E (m ^^^ prevCt) ^^^ prevPt
    c :: igeEncBlocks E ms c m

/-- The loop of `IGE_DEC` over the blocks of `data` with `prev_ct` and `prev_pt` (rule R82). -/
def igeDecBlocks (D : Block → Block) : List Block → Block → Block → List Block
  | [], _, _ => []
  | c :: cs, prevCt, prevPt =>
    let m := D (c ^^^ prevPt) ^^^ prevCt
    m :: igeDecBlocks D cs c m

/-- The result of `IGE_ENC` (rules R81, R83). -/
def igeEncrypt (E : Block → Block) (iv data : Bytes) : Bytes :=
  bytesOfBlocks (igeEncBlocks E (blocksOf data) (igeIv1 iv) (igeIv2 iv))

/-- The result of `IGE_DEC` (rules R82, R83). -/
def igeDecrypt (D : Block → Block) (iv data : Bytes) : Bytes :=
  bytesOfBlocks (igeDecBlocks D (blocksOf data) (igeIv1 iv) (igeIv2 iv))

/-- `IGE_ENC` (rules R80, R81). -/
def execIgeEnc (key iv data : Bytes) (s : State) : Host.Outcome State Fault Refusal :=
  if igeLengthsOk key iv data then
    .next (s.respond (opByte .igeEnc) .ok (igeEncrypt (cipherE s.params.cipher key) iv data))
  else .next (s.raise (opByte .igeEnc) .invalidLength)

/-- `IGE_DEC` (rules R80, R82). -/
def execIgeDec (key iv data : Bytes) (s : State) : Host.Outcome State Fault Refusal :=
  if igeLengthsOk key iv data then
    .next (s.respond (opByte .igeDec) .ok (igeDecrypt (cipherD s.params.cipher key) iv data))
  else .next (s.raise (opByte .igeDec) .invalidLength)

end Sys2Proof.Machine
end

