-- ==== Sys2Proof/Machine/Dispatch.lean ====
section
/-! DEFINITION. One arm a command: each is a call of its meaning. -/

namespace Sys2Proof.Machine

def exec (i : Instr) (s : State) : Host.Outcome State Fault Refusal :=
  match i with
  | .igeEnc key iv data => Sys2Proof.Machine.execIgeEnc key iv data s
  | .igeDec key iv data => Sys2Proof.Machine.execIgeDec key iv data s
  | .ctrNew ctx iv => Sys2Proof.Machine.execCtrNew ctx iv s
  | .ctrApply ctx key data => Sys2Proof.Machine.execCtrApply ctx key data s
  | .ctrFree ctx => Sys2Proof.Machine.execCtrFree ctx s
  | .ctrRead ctx => Sys2Proof.Machine.execCtrRead ctx s
  | .cbcEnc key iv data => Sys2Proof.Machine.execCbcEnc key iv data s
  | .cbcDec key iv data => Sys2Proof.Machine.execCbcDec key iv data s
  | .factor data => Sys2Proof.Machine.execFactor data s

end Sys2Proof.Machine
end

