-- ==== Sys2Proof/Machine/Step.lean ====
section
/-! DEFINITION. One step of the engine (spec/30_encoding.md rules R46, R54, R56, R57). -/

namespace Sys2Proof.Machine

/-- One step: the engine receives, executes and answers one whole packet (rules R36, R56). While bytes
of the packet are missing it waits (rule R57); in a search that never completes it stays (rule R124). -/
def step (s : State) : Host.Outcome State Fault Refusal :=
  if s.searching then .next s
  else
    match decode s.command with
    | .incomplete => .next s
    | .illegal op _ rest => .next ((s.consumeTo rest).raise op .illegalCommand)
    | .command i rest => exec i (s.consumeTo rest)

/-- The state with the packet of a word of the opcode table at the command port, alone, and the engine
ready to receive it. -/
def State.withFetchWord (s : State) (nbits w : Nat) : State :=
  { s with command := tablePacket nbits w, searching := false }

end Sys2Proof.Machine
end

