-- ==== Sys2Proof/Machine/HostPort.lean ====
section
/-! DEFINITION. What the host does to the engine from outside: it sends bytes, takes bytes, resets
(spec/10_state.md rules R16, R22, spec/30_encoding.md rule R57, spec/70_reset_and_hazards.md rule
R160). `step` never does any of it by itself. -/

namespace Sys2Proof.Machine.State

/-- The host sends bytes: they arrive behind those not yet consumed, wherever a packet's bounds are
(rules R36, R46, R57). -/
def hostSend (s : State) (bs : Bytes) : State := { s with command := s.command ++ bs }

/-- The host takes the first `n` bytes the engine has sent. -/
def hostTake (s : State) (n : Nat) : State := { s with response := s.response.drop n }

/-- Reset at any time: every slot invalid, the engine idle, no packet partly received, no response owed
(rules R24, R160). The build parameters stay. Two points the spec leaves open are settled here, DESIGN
CHOICE, log entry 6: whole packets that wait at the command port and are not started are dropped with
the partial one, and what the engine had sent stays (entry U12). -/
def hostReset (s : State) : State :=
  { s with ctx := List.replicate s.ctx.length none, command := [], searching := false }

end Sys2Proof.Machine.State
end

