-- ==== Sys2Proof/Machine/System.lean ====
section
/-! DEFINITION. A system of `N_ENGINES` engines: the disjoint union of that many copies of the machine
(spec/10_state.md rule R23, spec/60_exceptions.md rule R152). -/

namespace Sys2Proof.Machine

/-- The engines of a system; `N_ENGINES` is the list's length (rules R8, R23). -/
structure System where
  engines : List State
  deriving DecidableEq, Repr

/-- Engine `k` takes a step and no other engine does; a number that names no engine moves nothing
(rule R23). Whether two engines' factorizers draw from one random source is a matter of their
parameters: log entries 4 and 14. -/
def stepEngine (k : Nat) (y : System) : Host.Outcome System Fault Refusal :=
  match y.engines[k]? with
  | none => .next y
  | some s =>
    match step s with
    | .next t => .next ⟨y.engines.set k t⟩
    | .fault r => .fault r
    | .refused r => .refused r

end Sys2Proof.Machine
end

