-- ==== Sys2Proof/Safety.lean ====
section
/-! DEFINITION. What counts as a safe run, in the terms the statements use: packets as the host writes
them, the table of error causes, legal responses, the changes a slot may go through, the invariant. The
tables here are written from the spec on their own, field by field; neither decoder nor meanings use
them. -/

namespace Sys2Proof

open Sys2Proof.Machine

/-- The 8 header bytes, field by field (rule R45). -/
def headerBytes (h : Header) : Bytes := [h.op, h.ctx, h.klen, h.ivlen] ++ bytesBe h.dlen.toNat 4

/-- A packet's bytes: header, key, iv, data (rule R45). -/
def packetBytes (p : Packet) : Bytes := headerBytes p.header ++ p.key ++ p.iv ++ p.data

/-- The payloads have the lengths the header declares (rule R45). -/
abbrev Packet.wellSized (p : Packet) : Prop :=
  p.key.length = p.header.klen.toNat ∧ p.iv.length = p.header.ivlen.toNat ∧
    p.data.length = p.header.dlen.toNat

/-- The causes of `IllegalCommand` that lie in the opcode (rules R50, R142). -/
def illegalOpcode (h : Header) (hasFactorizer : Bool) : Bool :=
  h.op == 0x00 || decide (0x0A ≤ h.op.toNat) || (h.op == 0x09 && !hasFactorizer)

/-- The causes of `IllegalCommand` that lie in a must-be-zero field, field by field (rule R142). -/
def surplusField (h : Header) : Bool :=
  (h.ctx != 0 && [1, 2, 7, 8, 9].contains h.op.toNat) ||
    (h.klen != 0 && [3, 5, 6, 9].contains h.op.toNat) ||
    (h.ivlen != 0 && [4, 5, 6, 9].contains h.op.toNat) ||
    (h.dlen != 0 && [3, 5, 6].contains h.op.toNat)

/-- The causes of `BadContext`, with the slot that `CTX` names (rule R143). -/
def badContextCause (h : Header) (slot : Option (Option CtrState)) : Bool :=
  [3, 4, 5, 6].contains h.op.toNat &&
    match slot with
    | none => true
    | some none => [4, 5, 6].contains h.op.toNat
    | some (some _) => h.op == 0x03

/-- The causes of `InvalidLength`, by command (rule R141). -/
def badLengthCause (h : Header) : Bool :=
  match h.op.toNat with
  | 1 => h.dlen == 0 || h.dlen.toNat % 16 != 0 || h.klen != 32 || h.ivlen != 32
  | 2 => h.dlen == 0 || h.dlen.toNat % 16 != 0 || h.klen != 32 || h.ivlen != 32
  | 3 => h.ivlen != 16
  | 4 => h.dlen == 0 || h.klen != 32
  | 7 => h.dlen == 0 || h.dlen.toNat % 16 != 0 || h.klen != 32 || h.ivlen != 16
  | 8 => h.dlen == 0 || h.dlen.toNat % 16 != 0 || h.klen != 32 || h.ivlen != 16
  | 9 => h.dlen != 8
  | _ => false

/-- The first status, in the order of priority, that a header and the slot it names have a cause for
(rule R145). -/
def firstError (h : Header) (slot : Option (Option CtrState)) (hasFactorizer : Bool) :
    Option Status :=
  if illegalOpcode h hasFactorizer then some .illegalCommand
  else if surplusField h then some .illegalCommand
  else if badContextCause h slot then some .badContext
  else if badLengthCause h then some .invalidLength
  else none

namespace Machine

/-- The engine is ready, and a whole packet with `rest` behind it is at its command port. -/
abbrev State.atPacket (s : State) (p : Packet) (rest : Bytes) : Prop :=
  s.searching = false ∧ p.wellSized ∧ s.command = packetBytes p ++ rest

/-- A response, as a record. -/
structure Reply where
  op : Byte
  status : Status
  result : Bytes
  deriving DecidableEq, Repr

/-- The result length that status `OK` comes with, by the echoed opcode (rule R48). -/
def okLength (op : Byte) (n : Nat) : Bool :=
  match op.toNat with
  | 1 => n != 0 && n % 16 == 0
  | 2 => n != 0 && n % 16 == 0
  | 3 => n == 0
  | 4 => n != 0
  | 5 => n == 0
  | 6 => n == 17
  | 7 => n != 0 && n % 16 == 0
  | 8 => n != 0 && n % 16 == 0
  | 9 => n == 16
  | _ => false

/-- A response the engine may send: `RLEN` holds its length; only `OK` has a result, of the length the
opcode gives; `NotFactorable` answers `FACTOR` alone (rules R48, R52, R53, R54). -/
abbrev Reply.legal (r : Reply) : Prop :=
  r.result.length < 2 ^ 32 ∧ (r.status ≠ .ok → r.result = []) ∧
    (r.status = .ok → okLength r.op r.result.length = true) ∧
    (r.status = .notFactorable → r.op = 0x09)

/-- The bytes are whole response packets, one after the other, each legal (rule R54). -/
def ResponsesLegal (bs : Bytes) : Prop :=
  ∃ rs : List Reply, (∀ r ∈ rs, r.legal) ∧
    bs = rs.flatMap fun r => responsePacket r.op r.status r.result

/-- What a command may make of the slot it names (rules R12, R91, R93, R102): `inc128` is applied `t`
times by `inc128^[t]`. -/
inductive SlotChange : Instr → Option CtrState → Option CtrState → Prop where
  /-- Any command: nothing. -/
  | kept (i : Instr) (v : Option CtrState) : SlotChange i v v
  /-- `CTR_NEW`: a stream at its start, where there was none. -/
  | created (ctx : Byte) (iv : Bytes) (h : iv.length = 16) :
      SlotChange (.ctrNew ctx iv) none (some ⟨blk iv 0, 0⟩)
  /-- `CTR_APPLY`: the stream advanced by the bytes of its data. -/
  | advanced (ctx : Byte) (key data : Bytes) (c : CtrState) (hk : key.length = 32)
      (hd : data.length ≠ 0) :
      SlotChange (.ctrApply ctx key data) (some c)
        (some ⟨inc128^[(c.byteOffset.val + data.length) / 16] c.counterIv,
          Fin.ofNat 16 (c.byteOffset.val + data.length)⟩)
  /-- `CTR_FREE`: the stream destroyed. -/
  | destroyed (ctx : Byte) (c : CtrState) : SlotChange (.ctrFree ctx) (some c) none

/-- What every state of a run has: between 1 and 256 context slots (rules R8, R13), and at the response
port whole legal responses only (rule R54). -/
def State.Inv (s : State) : Prop :=
  1 ≤ s.ctx.length ∧ s.ctx.length ≤ 256 ∧ ResponsesLegal s.response

/-- A stream sent in pieces: each piece from the CTR State the one before it left (rule R98). -/
def ctrPieces (E : Block → Block) (c : CtrState) : List Bytes → Bytes × CtrState
  | [] => ([], c)
  | piece :: more =>
    let r := ctrTransform E c piece
    let r' := ctrPieces E r.2 more
    (r.1 ++ r'.1, r'.2)

end Machine

end Sys2Proof
end

