-- ==== Sys2Proof/Certificates/Slice0/Obligations.lean ====
section
/-! DEFINITION. The statements about the machine, each from the rules of spec/ that its docstring
names. A next state is written out as an update of the state before: what the update does not name is
unchanged. -/

open Sys2Proof Sys2Proof.Machine

section Encoding

/-- Rules R45 to R49, R58: decoding the packet of any well-formed command, whatever follows it, gives
the command back and leaves what follows. -/
def Obligations.DecodeEncodeRoundTrip : Prop :=
  ∀ (i : Instr) (rest : Bytes), i.wellFormed = true → decode (encode i ++ rest) = .command i rest

/-- Rules R45 to R47: bytes that decode to a command are the packet of that command, which is well
formed, and what follows it: no two packets spell one command. -/
def Obligations.DecodedBytesAreThePacketOfTheCommand : Prop :=
  ∀ (bs rest : Bytes) (i : Instr), decode bs = .command i rest →
    i.wellFormed = true ∧ bs = encode i ++ rest

/-- Rule R51 (derived there from R47 to R50): the header word selects a row of the opcode table by
mask and match exactly when its opcode is the row's and the row's must-be-zero fields are zero. -/
def Obligations.MaskAndMatchSelectTheRow : Prop :=
  ∀ (h : Header) (m : Mnemonic),
    headerWord h &&& rowMask m = rowMatch m ↔ mnemonicOf h.op = some m ∧ mbzClear m h = true

/-- Rules R45, R47 and vectors E1, E2, T12 of spec/95_test_vectors.md: packets written out byte by byte
decode to the commands they stand for. -/
def Obligations.WordsOfTheSpecDecode : Prop :=
  decode [0x06, 0x02, 0, 0, 0, 0, 0, 0] = .command (.ctrRead 2) [] ∧
  decode [0x05, 0x01, 0, 0, 0, 0, 0, 0, 0x77] = .command (.ctrFree 1) [0x77] ∧
  decode [0x04, 0x02, 0x02, 0, 0, 0, 0, 0x03, 1, 2, 3, 4, 5] =
    .command (.ctrApply 2 [1, 2] [3, 4, 5]) [] ∧
  decode [0x01, 0, 0x01, 0x02, 0, 0, 0, 0x01, 0xaa, 0xbb, 0xcc, 0xdd] =
    .command (.igeEnc [0xaa] [0xbb, 0xcc] [0xdd]) [] ∧
  decode [0x0a, 0, 0x01, 0x01, 0, 0, 0, 0x02, 0xaa, 0xbb, 0xcc, 0xdd, 0x05] =
    .illegal 0x0a .reservedOpcode [0x05] ∧
  decodeTableWord 64 0x0300000000000000 = some (.ctrNew 0 []) ∧
  decodeTableWord 64 0x0900000000000000 = some (.factor [])

/-- Rule R50: the opcodes `0x00` and `0x0A .. 0xFF`, and `0x09` without a factorizer, raise
`IllegalCommand` whatever the other fields, and do nothing else. -/
def Obligations.ReservedOpcodesRaiseIllegalCommand : Prop :=
  ∀ (s : State) (p : Packet) (rest : Bytes), s.atPacket p rest →
    (p.header.op = 0x00 ∨ 0x0A ≤ p.header.op.toNat ∨
      (p.header.op = 0x09 ∧ s.params.hasFactorizer = false)) →
    step s = .next { s with
      command := rest
      response := s.response ++ responsePacket p.header.op .illegalCommand [] }

/-- Rule R52: the layout of the packet that a response appends at the response port. -/
def Obligations.ResponsePacketLayout : Prop :=
  ∀ (s : State) (op : Byte) (st : Status) (result : Bytes), result.length < 2 ^ 32 →
    ∃ b4 b5 b6 b7 : Byte,
      s.respond op st result = { s with
        response := s.response ++ ([op, statusByte st, 0, 0, b4, b5, b6, b7] ++ result) } ∧
      be [b4, b5, b6, b7] = result.length

/-- Rule R53: the five status codes. -/
def Obligations.StatusCodes : Prop :=
  statusByte .ok = 0x00 ∧ statusByte .invalidLength = 0x01 ∧ statusByte .notFactorable = 0x02 ∧
    statusByte .illegalCommand = 0x80 ∧ statusByte .badContext = 0x81

end Encoding

section Steps

/-- Rule R56: a step of an engine with a command's packet at its port is that command's execution,
once the packet's bytes are taken off the port. -/
def Obligations.StepRunsTheDecodedCommand : Prop :=
  ∀ (s : State) (i : Instr) (rest : Bytes), s.searching = false →
    decode s.command = .command i rest → step s = exec i { s with command := rest }

/-- Rules R45, R56: a step executes the command whose packet the host has sent. -/
def Obligations.StepExecutesTheEncodedCommand : Prop :=
  ∀ (s : State) (i : Instr) (rest : Bytes), s.searching = false → i.wellFormed = true →
    s.command = encode i ++ rest → step s = exec i { s with command := rest }

/-- Rules R147, R148: nothing stops the engine; every step has a next state. -/
def Obligations.StepNeverFaultsOrRefuses : Prop :=
  ∀ s : State, ∃ t : State, step s = .next t

/-- Rules R46, R54: whether or not a packet spells a legal command, a step consumes exactly its bytes
and sends exactly one response, which echoes its opcode; only a `FACTOR` that never completes (rule
R124) sends none. -/
def Obligations.StepConsumesOnePacketAndAnswersOnce : Prop :=
  ∀ (s : State) (p : Packet) (rest : Bytes), s.atPacket p rest →
    ∃ t : State, step s = .next t ∧ t.command = rest ∧
      (t.searching = false →
        ∃ (st : Status) (r : Bytes), t.response = s.response ++ responsePacket p.header.op st r) ∧
      (t.searching = true → p.header.op = 0x09 ∧ t.response = s.response)

/-- Rule R57: while header bytes or payload bytes are missing, a step leaves the state as it is. -/
def Obligations.IncompletePacketWaits : Prop :=
  ∀ s : State, s.searching = false →
    (s.command.length < 8 ∨ ∃ (h : Header) (got : Bytes), s.command = headerBytes h ++ got ∧
      got.length < h.klen.toNat + h.ivlen.toNat + h.dlen.toNat) →
    step s = .next s

/-- Rule R124, entries U4 to U6: an engine whose search never completes answers nothing, whatever the
host sends. That such a search is a flag of the state is the model's reading (log entry 8). -/
def Obligations.EngineThatSearchesForeverAnswersNothing : Prop :=
  ∀ (s : State) (bs : Bytes), s.searching = true → step (s.hostSend bs) = .next (s.hostSend bs)

/-- Rules R141, R142, R143, R145: a command with a cause of error, by the spec's tables, gets the first
status in the order of priority, and no other effect; one with no cause there is answered `OK`, but that
a `FACTOR` may be answered `NotFactorable`, the last in the order, or search forever. -/
def Obligations.ErrorsFollowThePriorityTable : Prop :=
  ∀ (s : State) (p : Packet) (rest : Bytes), s.atPacket p rest →
    (∀ st : Status,
      firstError p.header (s.ctx[p.header.ctx.toNat]?) s.params.hasFactorizer = some st →
      step s = .next { s with
        command := rest
        response := s.response ++ responsePacket p.header.op st [] }) ∧
    (firstError p.header (s.ctx[p.header.ctx.toNat]?) s.params.hasFactorizer = none →
      ∃ t : State, step s = .next t ∧ t.command = rest ∧
        ((∃ r : Bytes, t.response = s.response ++ responsePacket p.header.op .ok r) ∨
          (p.header.op = 0x09 ∧
            (t.response = s.response ++ responsePacket 0x09 .notFactorable [] ∨
              (t.searching = true ∧ t.response = s.response)))))

/-- Rule R144: a step that answers with a status other than `OK` returns no result byte and changes
nothing but the command port, the response port and the model's own count of random draws (log
entry 4). -/
def Obligations.ErrorResponseHasNoOtherEffect : Prop :=
  ∀ (s t : State) (op : Byte) (st : Status) (r : Bytes), step s = .next t →
    t.response = s.response ++ responsePacket op st r → st ≠ .ok →
    r = [] ∧ t = { s with command := t.command, response := t.response, draws := t.draws }

/-- Rule R146: the status of a mode-engine command is a function of its header and of the `valid` bit
of the slot it names: two engines that agree on these answer with the same status, whatever payloads,
counters, offsets, parameters and histories they have. -/
def Obligations.StatusDependsOnHeaderAndValidBitOnly : Prop :=
  ∀ (s s' : State) (p p' : Packet) (rest rest' : Bytes), s.atPacket p rest → s'.atPacket p' rest' →
    p.header = p'.header → p.header.op ≠ 0x09 →
    (s.ctx[p.header.ctx.toNat]?).map Option.isSome =
      (s'.ctx[p.header.ctx.toNat]?).map Option.isSome →
    ∃ (t t' : State) (st : Status) (r r' : Bytes), step s = .next t ∧ step s' = .next t' ∧
      t.response = s.response ++ responsePacket p.header.op st r ∧
      t'.response = s'.response ++ responsePacket p.header.op st r'

/-- Rules R8, R17: no step changes an implementation parameter or the number of slots, and no step
takes back a byte of a response. -/
def Obligations.StepKeepsBuildParametersAndSentBytes : Prop :=
  ∀ s t : State, step s = .next t →
    t.params = s.params ∧ t.ctx.length = s.ctx.length ∧ ∃ more : Bytes, t.response = s.response ++ more

end Steps

section Invariants

/-- Rule R24: after reset every slot is invalid and the engine is idle, with no packet partly received
and no response partly sent; the first command is decoded like any other. -/
def Obligations.ResetLeavesEverySlotInvalidAndTheEngineIdle : Prop :=
  (∀ v ∈ State.reset.ctx, v = none) ∧ State.reset.command = [] ∧ State.reset.response = [] ∧
    State.reset.searching = false ∧
    ∀ (bs rest : Bytes) (i : Instr), decode bs = .command i rest →
      step (State.reset.hostSend bs) = exec i { State.reset with command := rest }

/-- Rule R160: a reset at any time leaves every slot invalid and the engine idle with no packet partly
received; it changes no parameter and not the number of slots. That whole packets waiting at the command
port are dropped too, so that no byte is left there, and that the response bytes already sent stay where
they are, are the model's choices (log entry 6). -/
def Obligations.HostResetInvalidatesEverySlot : Prop :=
  ∀ s : State, (∀ v ∈ s.hostReset.ctx, v = none) ∧ s.hostReset.ctx.length = s.ctx.length ∧
    s.hostReset.command = [] ∧ s.hostReset.searching = false ∧ s.hostReset.params = s.params ∧
    s.hostReset.response = s.response

/-- The reset state meets the invariant of `StepKeepsTheInvariant`. -/
def Obligations.ResetMeetsTheInvariant : Prop := State.reset.Inv

/-- Rules R8, R13, R48, R53, R54: from every state with 1 to 256 slots and whole legal responses at the
response port, a step leads to such a state. -/
def Obligations.StepKeepsTheInvariant : Prop :=
  ∀ s t : State, s.Inv → step s = .next t → t.Inv

/-- Rules R12, R36, R103: a step that runs a command changes no slot but the one its `ctx` operand names,
and that one only by creating a stream at its start (`CTR_NEW`), advancing it by the increments its bytes
take (`CTR_APPLY`) or destroying it (`CTR_FREE`): no counter is ever rewound. A step that runs none of
the three, an illegal packet's or one of waiting among them, leaves every slot as it was. -/
def Obligations.SlotsAreCreatedAdvancedOrDestroyedOneAtATime : Prop :=
  ∀ s t : State, step s = .next t →
    t.ctx.length = s.ctx.length ∧
    (∀ (i : Instr) (rest : Bytes), decode s.command = .command i rest →
      (∀ j : Nat, j ≠ i.ctxField.toNat → t.ctx[j]? = s.ctx[j]?) ∧
      ∀ v w : Option CtrState, s.ctx[i.ctxField.toNat]? = some v →
        t.ctx[i.ctxField.toNat]? = some w → SlotChange i v w) ∧
    (s.searching = true ∨
        (∀ (i : Instr) (rest : Bytes), decode s.command = .command i rest →
          i.mnemonic ≠ .ctrNew ∧ i.mnemonic ≠ .ctrApply ∧ i.mnemonic ≠ .ctrFree) →
      t.ctx = s.ctx)

end Invariants

section Ige

/-- Rules R80, R81, R83: `IGE_ENC` with valid lengths answers `OK` and changes nothing else; block `i`
of the result is `E(key, m_i XOR c_{i-1}) XOR m_{i-1}`, with `c_{-1} = iv[0..15]` and
`m_{-1} = iv[16..31]`. -/
def Obligations.IgeEncResult : Prop :=
  ∀ (s : State) (key iv data : Bytes), data.length ≠ 0 → data.length % 16 = 0 → key.length = 32 →
    iv.length = 32 →
    ∃ out : Bytes,
      exec (.igeEnc key iv data) s =
        .next { s with response := s.response ++ responsePacket 0x01 .ok out } ∧
      out.length = data.length ∧
      ∀ i < data.length / 16,
        blk out i =
          cipherE s.params.cipher key
              (blk data i ^^^ (if i = 0 then blk iv 0 else blk out (i - 1))) ^^^
            (if i = 0 then blk iv 1 else blk data (i - 1))

/-- Rules R80, R82, R83: `IGE_DEC` with valid lengths answers `OK` and changes nothing else; block `i`
of the result is `D(key, c_i XOR m_{i-1}) XOR c_{i-1}`, with the same halves of the IV. -/
def Obligations.IgeDecResult : Prop :=
  ∀ (s : State) (key iv data : Bytes), data.length ≠ 0 → data.length % 16 = 0 → key.length = 32 →
    iv.length = 32 →
    ∃ out : Bytes,
      exec (.igeDec key iv data) s =
        .next { s with response := s.response ++ responsePacket 0x02 .ok out } ∧
      out.length = data.length ∧
      ∀ i < data.length / 16,
        blk out i =
          cipherD s.params.cipher key
              (blk data i ^^^ (if i = 0 then blk iv 1 else blk out (i - 1))) ^^^
            (if i = 0 then blk iv 0 else blk data (i - 1))

/-- Rule R84: for all valid operands `IGE_DEC` undoes `IGE_ENC` and `IGE_ENC` undoes `IGE_DEC`, lengths
are preserved, and the results are functions of cipher, data, key and IV alone: the same in every
state, and no slot is read or changed. -/
def Obligations.IgeRoundTrip : Prop :=
  ∀ (c : Cipher) (key iv data : Bytes), data.length ≠ 0 → data.length % 16 = 0 →
    key.length = 32 → iv.length = 32 →
    ∃ ct pt : Bytes, ct.length = data.length ∧ pt.length = data.length ∧
      ∀ s : State, s.params.cipher = c →
        exec (.igeEnc key iv data) s =
          .next { s with response := s.response ++ responsePacket 0x01 .ok ct } ∧
        exec (.igeDec key iv ct) s =
          .next { s with response := s.response ++ responsePacket 0x02 .ok data } ∧
        exec (.igeDec key iv data) s =
          .next { s with response := s.response ++ responsePacket 0x02 .ok pt } ∧
        exec (.igeEnc key iv pt) s =
          .next { s with response := s.response ++ responsePacket 0x01 .ok data }

/-- Rule R85: the first `16*k` result bytes of either direction are the result of the first `16*k` data
bytes. -/
def Obligations.IgePrefixesAreIndependentOfLaterData : Prop :=
  ∀ (s : State) (key iv data : Bytes) (k : Nat), data.length % 16 = 0 → key.length = 32 →
    iv.length = 32 → 0 < k → 16 * k ≤ data.length →
    ∃ enc dec : Bytes,
      exec (.igeEnc key iv data) s =
        .next { s with response := s.response ++ responsePacket 0x01 .ok enc } ∧
      exec (.igeEnc key iv (data.take (16 * k))) s =
        .next { s with response := s.response ++ responsePacket 0x01 .ok (enc.take (16 * k)) } ∧
      exec (.igeDec key iv data) s =
        .next { s with response := s.response ++ responsePacket 0x02 .ok dec } ∧
      exec (.igeDec key iv (data.take (16 * k))) s =
        .next { s with response := s.response ++ responsePacket 0x02 .ok (dec.take (16 * k)) }

/-- Rule R82 (derived there): decryption is the encryption loop run with `D` in place of `E` and the
halves of the IV exchanged. -/
def Obligations.IgeDecIsTheEncLoopWithDAndExchangedHalves : Prop :=
  ∀ (D : Block → Block) (iv data : Bytes), iv.length = 32 →
    igeDecrypt D iv data = igeEncrypt D (iv.drop 16 ++ iv.take 16) data

/-- Rule R18 (derived there): an IGE message is continued by a second command whose IV is the last
ciphertext block followed by the last plaintext block, in both directions. -/
def Obligations.IgeContinuesThroughTheIv : Prop :=
  ∀ (s : State) (key iv a b : Bytes), a.length ≠ 0 → a.length % 16 = 0 → b.length ≠ 0 →
    b.length % 16 = 0 → key.length = 32 → iv.length = 32 →
    ∃ encA encB decA decB : Bytes, encA.length = a.length ∧ decA.length = a.length ∧
      exec (.igeEnc key iv a) s =
        .next { s with response := s.response ++ responsePacket 0x01 .ok encA } ∧
      exec (.igeEnc key (encA.drop (a.length - 16) ++ a.drop (a.length - 16)) b) s =
        .next { s with response := s.response ++ responsePacket 0x01 .ok encB } ∧
      exec (.igeEnc key iv (a ++ b)) s =
        .next { s with response := s.response ++ responsePacket 0x01 .ok (encA ++ encB) } ∧
      exec (.igeDec key iv a) s =
        .next { s with response := s.response ++ responsePacket 0x02 .ok decA } ∧
      exec (.igeDec key (a.drop (a.length - 16) ++ decA.drop (a.length - 16)) b) s =
        .next { s with response := s.response ++ responsePacket 0x02 .ok decB } ∧
      exec (.igeDec key iv (a ++ b)) s =
        .next { s with response := s.response ++ responsePacket 0x02 .ok (decA ++ decB) }

end Ige

section Cbc

/-- Rules R110, R111: `CBC_ENC` with valid lengths answers `OK` and changes nothing else; block `i` of
the result is `E(key, m_i XOR c_{i-1})`, with `c_{-1} = iv`. -/
def Obligations.CbcEncResult : Prop :=
  ∀ (s : State) (key iv data : Bytes), data.length ≠ 0 → data.length % 16 = 0 → key.length = 32 →
    iv.length = 16 →
    ∃ out : Bytes,
      exec (.cbcEnc key iv data) s =
        .next { s with response := s.response ++ responsePacket 0x07 .ok out } ∧
      out.length = data.length ∧
      ∀ i < data.length / 16,
        blk out i =
          cipherE s.params.cipher key
            (blk data i ^^^ (if i = 0 then blk iv 0 else blk out (i - 1)))

/-- Rules R110, R112: `CBC_DEC` with valid lengths answers `OK` and changes nothing else; block `i` of
the result is `D(key, c_i) XOR c_{i-1}`, with `c_{-1} = iv`. -/
def Obligations.CbcDecResult : Prop :=
  ∀ (s : State) (key iv data : Bytes), data.length ≠ 0 → data.length % 16 = 0 → key.length = 32 →
    iv.length = 16 →
    ∃ out : Bytes,
      exec (.cbcDec key iv data) s =
        .next { s with response := s.response ++ responsePacket 0x08 .ok out } ∧
      out.length = data.length ∧
      ∀ i < data.length / 16,
        blk out i =
          cipherD s.params.cipher key (blk data i) ^^^ (if i = 0 then blk iv 0 else blk data (i - 1))

/-- Rule R113: for all valid operands `CBC_DEC` undoes `CBC_ENC` and `CBC_ENC` undoes `CBC_DEC`, lengths
are preserved, and the results are functions of cipher, data, key and IV alone. -/
def Obligations.CbcRoundTrip : Prop :=
  ∀ (c : Cipher) (key iv data : Bytes), data.length ≠ 0 → data.length % 16 = 0 →
    key.length = 32 → iv.length = 16 →
    ∃ ct pt : Bytes, ct.length = data.length ∧ pt.length = data.length ∧
      ∀ s : State, s.params.cipher = c →
        exec (.cbcEnc key iv data) s =
          .next { s with response := s.response ++ responsePacket 0x07 .ok ct } ∧
        exec (.cbcDec key iv ct) s =
          .next { s with response := s.response ++ responsePacket 0x08 .ok data } ∧
        exec (.cbcDec key iv data) s =
          .next { s with response := s.response ++ responsePacket 0x08 .ok pt } ∧
        exec (.cbcEnc key iv pt) s =
          .next { s with response := s.response ++ responsePacket 0x07 .ok data }

/-- Rule R113 (derived there): a CBC message is continued by a second command whose IV is the last
ciphertext block of the first, in both directions. -/
def Obligations.CbcContinuesThroughTheIv : Prop :=
  ∀ (s : State) (key iv a b : Bytes), a.length ≠ 0 → a.length % 16 = 0 → b.length ≠ 0 →
    b.length % 16 = 0 → key.length = 32 → iv.length = 16 →
    ∃ encA encB decA decB : Bytes,
      exec (.cbcEnc key iv a) s =
        .next { s with response := s.response ++ responsePacket 0x07 .ok encA } ∧
      exec (.cbcEnc key (encA.drop (a.length - 16)) b) s =
        .next { s with response := s.response ++ responsePacket 0x07 .ok encB } ∧
      exec (.cbcEnc key iv (a ++ b)) s =
        .next { s with response := s.response ++ responsePacket 0x07 .ok (encA ++ encB) } ∧
      exec (.cbcDec key iv a) s =
        .next { s with response := s.response ++ responsePacket 0x08 .ok decA } ∧
      exec (.cbcDec key (a.drop (a.length - 16)) b) s =
        .next { s with response := s.response ++ responsePacket 0x08 .ok decB } ∧
      exec (.cbcDec key iv (a ++ b)) s =
        .next { s with response := s.response ++ responsePacket 0x08 .ok (decA ++ decB) }

end Cbc

section Ctr

/-- Rule R91: `CTR_NEW` on a free slot with a 16-byte IV makes the slot the CTR State `(iv, 0)`, answers
`OK` with no result, and changes nothing else. -/
def Obligations.CtrNewCreatesAStreamAtItsStart : Prop :=
  ∀ (s : State) (ctx : Byte) (iv : Bytes), s.ctx[ctx.toNat]? = some none → iv.length = 16 →
    ∃ c : CtrState, bytesOfBlock c.counterIv = iv ∧ c.byteOffset = 0 ∧
      exec (.ctrNew ctx iv) s = .next { s with
        ctx := s.ctx.set ctx.toNat (some c)
        response := s.response ++ responsePacket 0x03 .ok [] }

/-- Rules R92, R93, R96, R97, R104: `CTR_APPLY` on a live slot `(c0, o0)` with a 32-byte key and `n > 0`
bytes answers `OK`; result byte `j` is `data[j] XOR E(key, inc128^q(c0))[r]` with
`q = (o0 + j) div 16` and `r = (o0 + j) mod 16`; the slot becomes `inc128^((o0 + n) div 16)(c0)` and
`(o0 + n) mod 16`; nothing else changes. The key is the one of this command, also in mid-block, as
the spec chose for U2 (log entry 9). -/
def Obligations.CtrApplyClosedForm : Prop :=
  ∀ (s : State) (ctx : Byte) (key data : Bytes) (c : CtrState),
    s.ctx[ctx.toNat]? = some (some c) → key.length = 32 → data.length ≠ 0 →
    ∃ out : Bytes,
      exec (.ctrApply ctx key data) s = .next { s with
        ctx := s.ctx.set ctx.toNat
          (some ⟨inc128^[(c.byteOffset.val + data.length) / 16] c.counterIv,
            Fin.ofNat 16 (c.byteOffset.val + data.length)⟩)
        response := s.response ++ responsePacket 0x04 .ok out } ∧
      out.length = data.length ∧
      ∀ (j : Nat) (d : Byte), data[j]? = some d →
        out[j]? = some (d ^^^ blockByte
          (cipherE s.params.cipher key (inc128^[(c.byteOffset.val + j) / 16] c.counterIv))
          (Fin.ofNat 16 (c.byteOffset.val + j)))

/-- Rule R98: sending a stream in two commands gives the bytes of one command and leaves the slot in the
same state, at any split point; on the level of the function an empty piece is the identity and any
number of pieces will do. -/
def Obligations.CtrSplitInvariance : Prop :=
  (∀ (s : State) (ctx : Byte) (key a b : Bytes) (c : CtrState),
    s.ctx[ctx.toNat]? = some (some c) → key.length = 32 → a.length ≠ 0 → b.length ≠ 0 →
    ∃ (t u v : State) (outA outB : Bytes),
      exec (.ctrApply ctx key a) s = .next t ∧ exec (.ctrApply ctx key b) t = .next u ∧
      exec (.ctrApply ctx key (a ++ b)) s = .next v ∧
      t.response = s.response ++ responsePacket 0x04 .ok outA ∧
      u.response = t.response ++ responsePacket 0x04 .ok outB ∧
      v.response = s.response ++ responsePacket 0x04 .ok (outA ++ outB) ∧
      u.ctx = v.ctx) ∧
  ∀ (E : Block → Block) (c : CtrState) (pieces : List Bytes),
    ctrPieces E c pieces = ctrTransform E c pieces.flatten

/-- Rule R99: encryption and decryption are the same command: if it maps `data` to `out` from a CTR
State, it maps `out` to `data` from the same CTR State with the same key, on whatever slot. -/
def Obligations.CtrApplyUndoesItself : Prop :=
  ∀ (s s' : State) (ctx ctx' : Byte) (key data : Bytes) (c : CtrState),
    s.ctx[ctx.toNat]? = some (some c) → s'.ctx[ctx'.toNat]? = some (some c) →
    s.params.cipher = s'.params.cipher → key.length = 32 → data.length ≠ 0 →
    ∃ (t t' : State) (out : Bytes),
      exec (.ctrApply ctx key data) s = .next t ∧
      t.response = s.response ++ responsePacket 0x04 .ok out ∧
      exec (.ctrApply ctx' key out) s' = .next t' ∧
      t'.response = s'.response ++ responsePacket 0x04 .ok data

/-- Rule R103: the result of `CTR_APPLY` and the new value of its slot depend on the slot, the key and
the data alone (and on the cipher the engine is built over), and no other slot is affected. -/
def Obligations.StreamsAreIndependent : Prop :=
  ∀ (s s' : State) (ctx : Byte) (key data : Bytes) (c : CtrState),
    s.ctx[ctx.toNat]? = some (some c) → s'.ctx[ctx.toNat]? = some (some c) →
    s.params.cipher = s'.params.cipher → key.length = 32 → data.length ≠ 0 →
    ∃ (t t' : State) (out : Bytes),
      exec (.ctrApply ctx key data) s = .next t ∧ exec (.ctrApply ctx key data) s' = .next t' ∧
      t.response = s.response ++ responsePacket 0x04 .ok out ∧
      t'.response = s'.response ++ responsePacket 0x04 .ok out ∧
      t.ctx[ctx.toNat]? = t'.ctx[ctx.toNat]? ∧
      ∀ j : Nat, j ≠ ctx.toNat → t.ctx[j]? = s.ctx[j]? ∧ t'.ctx[j]? = s'.ctx[j]?

/-- Rule R95: `inc128` adds 1 to the big-endian integer modulo `2^128`; byte by byte, it adds 1 to byte
15 and to each byte all of whose less significant bytes were `ff`; the block of sixteen `ff` goes to
zero. -/
def Obligations.Inc128IsBigEndianIncrementWithCarry : Prop :=
  (∀ c : Block, bytesOfBlock (inc128 c) = bytesBe ((be (bytesOfBlock c) + 1) % 2 ^ 128) 16) ∧
  (∀ (c : Block) (k : Fin 16),
    ((∀ j : Fin 16, k < j → blockByte c j = 0xff) →
      blockByte (inc128 c) k = blockByte c k + 1) ∧
    ((∃ j : Fin 16, k < j ∧ blockByte c j ≠ 0xff) → blockByte (inc128 c) k = blockByte c k)) ∧
  ∀ c : Block, (∀ k : Fin 16, blockByte c k = 0xff) → ∀ k : Fin 16, blockByte (inc128 c) k = 0

/-- Rule R94: each byte advances the offset by one modulo 16, so that a command leaves it at
`(old + DLEN) mod 16`; it stays below 16 and gets smaller only by wrapping from 15 to 0. -/
def Obligations.OffsetAdvancesModuloSixteen : Prop :=
  (∀ (E : Block → Block) (c : CtrState) (data : Bytes),
    (ctrTransform E c data).2.byteOffset.val = (c.byteOffset.val + data.length) % 16) ∧
  (∀ (E : Block → Block) (c : CtrState) (data : Bytes) (d : Byte),
    (ctrTransform E c (data ++ [d])).2.byteOffset.val =
      ((ctrTransform E c data).2.byteOffset.val + 1) % 16) ∧
  ∀ (E : Block → Block) (c : CtrState) (d : Byte),
    (ctrTransform E c [d]).2.byteOffset < c.byteOffset →
    c.byteOffset = 15 ∧ (ctrTransform E c [d]).2.byteOffset = 0

/-- Rule R101: `CTR_READ` on a live slot answers `OK` with the 16 bytes of `counter_iv` and then
`byte_offset`, which is below 16, and changes nothing else. -/
def Obligations.CtrReadReturnsTheState : Prop :=
  ∀ (s : State) (ctx : Byte) (c : CtrState), s.ctx[ctx.toNat]? = some (some c) →
    ∃ off : Byte, off.toNat = c.byteOffset.val ∧ off.toNat < 16 ∧
      exec (.ctrRead ctx) s = .next { s with
        response := s.response ++ responsePacket 0x06 .ok (bytesOfBlock c.counterIv ++ [off]) }

/-- Rule R102: `CTR_FREE` on a live slot invalidates it, answers `OK` with no result and changes nothing
else; after it `CTR_APPLY`, `CTR_READ` and `CTR_FREE` on the slot raise `BadContext`, and `CTR_NEW`
succeeds with nothing of the old stream left. -/
def Obligations.CtrFreeDestroysTheStream : Prop :=
  ∀ (s : State) (ctx : Byte) (c : CtrState), s.ctx[ctx.toNat]? = some (some c) →
    ∃ t : State,
      t = { s with
        ctx := s.ctx.set ctx.toNat none
        response := s.response ++ responsePacket 0x05 .ok [] } ∧
      exec (.ctrFree ctx) s = .next t ∧
      exec (.ctrFree ctx) t =
        .next { t with response := t.response ++ responsePacket 0x05 .badContext [] } ∧
      exec (.ctrRead ctx) t =
        .next { t with response := t.response ++ responsePacket 0x06 .badContext [] } ∧
      (∀ key data : Bytes, exec (.ctrApply ctx key data) t =
        .next { t with response := t.response ++ responsePacket 0x04 .badContext [] }) ∧
      ∀ iv : Bytes, iv.length = 16 → exec (.ctrNew ctx iv) t = .next { t with
        ctx := t.ctx.set ctx.toNat (some ⟨blk iv 0, 0⟩)
        response := t.response ++ responsePacket 0x03 .ok [] }

end Ctr

section Factorizer

/-- Rule R120: without the unit `FACTOR` raises `IllegalCommand` and does nothing else. -/
def Obligations.FactorWithoutTheUnitIsIllegal : Prop :=
  ∀ (s : State) (data : Bytes), s.params.hasFactorizer = false →
    exec (.factor data) s =
      .next { s with response := s.response ++ responsePacket 0x09 .illegalCommand [] }

/-- Rules R121, R122, R125: with the unit and an infinite budget, `FACTOR` of the product of two distinct
primes answers `OK` with the smaller and the larger prime. That it always completes then, and for
primes of any sizes, is the model's reading (log entry 5). -/
def Obligations.FactorFindsTheTwoPrimes : Prop :=
  ∀ (s : State) (p q : Nat), Nat.Prime p → Nat.Prime q → p < q → p * q < 2 ^ 64 →
    s.params.hasFactorizer = true → s.params.factorBudget = none →
    exec (.factor (bytesBe (p * q) 8)) s = .next { s with
      response := s.response ++ responsePacket 0x09 .ok (bytesBe p 8 ++ bytesBe q 8)
      draws := s.draws + 1 }

/-- Rules R122, R125, R126: with a finite budget, `FACTOR` of the product of two distinct primes answers
`OK` with the two primes or `NotFactorable`: the random source cannot change the pair. That it comes to
an end is the model's reading (log entry 5). -/
def Obligations.FactorWithABudgetFindsTheTwoPrimesOrGivesUp : Prop :=
  ∀ (s : State) (p q b : Nat), Nat.Prime p → Nat.Prime q → p < q → p * q < 2 ^ 64 →
    s.params.hasFactorizer = true → s.params.factorBudget = some b →
    exec (.factor (bytesBe (p * q) 8)) s = .next { s with
      response := s.response ++ responsePacket 0x09 .ok (bytesBe p 8 ++ bytesBe q 8)
      draws := s.draws + 1 } ∨
    exec (.factor (bytesBe (p * q) 8)) s = .next { s with
      response := s.response ++ responsePacket 0x09 .notFactorable []
      draws := s.draws + 1 }

/-- Rules R122, R124, entry U5: whatever the input, a pair returned with `OK` meets the contract
`p * q = pq`, `1 < p <= q`. Outside the precondition this is the spec's own treatment of an open point,
U5 and U6 (log entry 5). -/
def Obligations.FactorOkMeetsTheContract : Prop :=
  ∀ (s t : State) (data r : Bytes), exec (.factor data) s = .next t →
    t.response = s.response ++ responsePacket 0x09 .ok r →
    r.length = 16 ∧ be (r.take 8) * be (r.drop 8) = be data ∧ 1 < be (r.take 8) ∧
      be (r.take 8) ≤ be (r.drop 8)

/-- Rules R124, R125, entry U4: on an input with no factor pair (a prime, 1, 0) `FACTOR` answers
`NotFactorable` if the budget is finite, and never answers if it is not: the spec's own treatment of an
open point, U4 (log entry 5). -/
def Obligations.FactorWithoutAPairNeverAnswersOk : Prop :=
  ∀ (s : State) (data : Bytes), data.length = 8 → s.params.hasFactorizer = true →
    (∀ g : Nat, 1 < g → g < be data → ¬ g ∣ be data) →
    (s.params.factorBudget.isSome = true → exec (.factor data) s = .next { s with
      response := s.response ++ responsePacket 0x09 .notFactorable []
      draws := s.draws + 1 }) ∧
    (s.params.factorBudget = none → exec (.factor data) s = .next { s with
      searching := true
      draws := s.draws + 1 })

/-- Rule R127, entry U6: on the square of a prime `FACTOR` answers `OK` with the pair `(p, p)`, or
`NotFactorable`, or nothing ever: the spec's own treatment of an open point (log entry 5). -/
def Obligations.FactorOfAPrimeSquareCanOnlyReturnTheRoot : Prop :=
  ∀ (s : State) (p : Nat), Nat.Prime p → p * p < 2 ^ 64 → s.params.hasFactorizer = true →
    exec (.factor (bytesBe (p * p) 8)) s = .next { s with
      response := s.response ++ responsePacket 0x09 .ok (bytesBe p 8 ++ bytesBe p 8)
      draws := s.draws + 1 } ∨
    exec (.factor (bytesBe (p * p) 8)) s = .next { s with
      response := s.response ++ responsePacket 0x09 .notFactorable []
      draws := s.draws + 1 } ∨
    exec (.factor (bytesBe (p * p) 8)) s = .next { s with
      searching := true
      draws := s.draws + 1 }

/-- Rule R125: `NotFactorable` is answered by `FACTOR` alone, only by an engine whose budget is finite,
and with no result byte. -/
def Obligations.NotFactorableNeedsAFiniteBudget : Prop :=
  ∀ (s t : State) (op : Byte) (r : Bytes), step s = .next t →
    t.response = s.response ++ responsePacket op .notFactorable r →
    op = 0x09 ∧ r = [] ∧ s.params.hasFactorizer = true ∧ s.params.factorBudget.isSome = true

/-- Rule R120: `FACTOR` writes no slot and no parameter and takes no byte of the command port. -/
def Obligations.FactorLeavesTheModeEngineAlone : Prop :=
  ∀ (s : State) (data : Bytes), ∃ t : State, exec (.factor data) s = .next t ∧ t.ctx = s.ctx ∧
    t.params = s.params ∧ t.command = s.command

end Factorizer

section Primitive

/-- Rule R71: for every cipher the engine may be built over and every key, `E(k, ·)` is a permutation of
the blocks and `D(k, ·)` is its inverse. -/
def Obligations.PrimitiveIsAPermutationAndItsInverse : Prop :=
  ∀ (c : Cipher) (k : Key), Function.Bijective (cipherUnit c .enc k) ∧
    ∀ b : Block, cipherUnit c .dec k (cipherUnit c .enc k b) = b ∧
      cipherUnit c .enc k (cipherUnit c .dec k b) = b

/-- Rule R136: the check values of AES-256. -/
def Obligations.AesCheckValues : Prop :=
  aesEncrypt 0x000102030405060708090a0b0c0d0e0f101112131415161718191a1b1c1d1e1f
    0x00112233445566778899aabbccddeeff = 0x8ea2b7ca516745bfeafc49904b496089 ∧
  aesEncrypt 0 0 = 0xdc95c078a2408989ad48a21492842087 ∧
  aesEncrypt 0 0xdc95c078a2408989ad48a21492842087 = 0x08c374848c228233c2b34f332bd2e9d3 ∧
  aesEncrypt 0 1 = 0x530f8afbc74536b9a963b4f1c4cb738b ∧
  aesEncrypt 0 2 = 0xcea7403d4d606b6e074ec5d3baf39d18 ∧
  aesEncrypt 0x000102030405060708090a0b0c0d0e0f101112131415161718191a1b1c1d1e1f
    0x404142434445464748494a4b4c4d4e4f = 0xa37edf3f975abaef937b62c78d5bb157 ∧
  aesDecrypt 0x000102030405060708090a0b0c0d0e0f101112131415161718191a1b1c1d1e1f
    0x8ea2b7ca516745bfeafc49904b496089 = 0x00112233445566778899aabbccddeeff ∧
  aesDecrypt 0 0 = 0x67671ce1fa91ddeb0f8fbbb366b531b4 ∧
  aesDecrypt 0x000102030405060708090a0b0c0d0e0f101112131415161718191a1b1c1d1e1f
    0x404142434445464748494a4b4c4d4e4f = 0x2fc42cd259538e33ba0420b57f19f0b4

/-- Rule R131: `SBOX[a]` is the affine map of the inverse of `a` in GF(2^8), with 0 for 0, and
`INV_SBOX` undoes it. -/
def Obligations.SboxIsTheAffineMapOfTheInverse : Prop :=
  ∀ a : Byte, invSbox (sbox a) = a ∧
    ∃ x : Byte, (a = 0 → x = 0) ∧ (a ≠ 0 → gfMul a x = 1) ∧
      ∀ i : Fin 8, (sbox a).getLsbD i.val =
        (x.getLsbD i.val ^^ x.getLsbD ((i.val + 4) % 8) ^^ x.getLsbD ((i.val + 5) % 8) ^^
          x.getLsbD ((i.val + 6) % 8) ^^ x.getLsbD ((i.val + 7) % 8) ^^
          (0x63 : Byte).getLsbD i.val)

/-- Rule R132: the check values of the key expansion. -/
def Obligations.KeyScheduleCheckValues : Prop :=
  ((keySchedule 0).drop 8).take 8 =
    List.replicate 4 ⟨0x62, 0x63, 0x63, 0x63⟩ ++ List.replicate 4 ⟨0xaa, 0xfb, 0xfb, 0xfb⟩ ∧
  (keySchedule 0).drop 56 =
    [⟨0x10, 0xf8, 0x0a, 0x17⟩, ⟨0x53, 0xbf, 0x72, 0x9c⟩, ⟨0x45, 0xc9, 0x79, 0xe7⟩,
      ⟨0xcb, 0x70, 0x63, 0x85⟩] ∧
  (keySchedule 0x000102030405060708090a0b0c0d0e0f101112131415161718191a1b1c1d1e1f).drop 56 =
    [⟨0x24, 0xfc, 0x79, 0xcc⟩, ⟨0xbf, 0x09, 0x79, 0xe9⟩, ⟨0x37, 0x1a, 0xc2, 0x3c⟩,
      ⟨0x6d, 0x68, 0xde, 0x36⟩] ∧
  (keySchedule 0).length = 60

end Primitive

section Systems

/-- Rule R23: a step of one engine of a system changes no other engine, and is the step that engine
takes alone. -/
def Obligations.EnginesShareNothing : Prop :=
  ∀ (y : System) (k : Nat) (s : State), y.engines[k]? = some s →
    ∃ (t : State) (z : System), step s = .next t ∧ stepEngine k y = .next z ∧
      z.engines[k]? = some t ∧ z.engines.length = y.engines.length ∧
      ∀ j : Nat, j ≠ k → z.engines[j]? = y.engines[j]?

end Systems
end

