-- ==== Sys2Proof/Laws/Bytes.lean ====
section
/-! SUPPORT. Byte order: integers, blocks and operand sequences there and back. -/

namespace Sys2Proof.Machine

@[simp] theorem length_bytesBe (v n : Nat) : (bytesBe v n).length = n := by
  induction n with
  | zero => rfl
  | succ n ih => simp [bytesBe, ih]

theorem be_lt (s : Bytes) : be s < 256 ^ s.length := by
  induction s with
  | nil => simp [be]
  | cons b s ih =>
    have hb := b.isLt
    have : b.toNat * 256 ^ s.length + 256 ^ s.length ≤ 256 * 256 ^ s.length := by nlinarith
    simp only [be, List.length_cons, pow_succ]
    omega

theorem be_append (s t : Bytes) : be (s ++ t) = be s * 256 ^ t.length + be t := by
  induction s with
  | nil => simp [be]
  | cons b s ih => simp only [List.cons_append, be, ih, List.length_append, pow_add]; ring

/-- `bytes_be` depends on its integer modulo `256^n` only. -/
theorem bytesBe_mod (v n k : Nat) (h : n ≤ k) : bytesBe (v % 256 ^ k) n = bytesBe v n := by
  induction n with
  | zero => rfl
  | succ n ih =>
    have hk : 256 ^ k = 256 ^ n * (256 * 256 ^ (k - (n + 1))) := by
      rw [← pow_succ', ← pow_add]; congr 1; omega
    rw [bytesBe, bytesBe, ih (by omega)]
    congr 1
    apply BitVec.eq_of_toNat_eq
    simp only [BitVec.toNat_ofNat]
    rw [hk, Nat.mod_mul_right_div_self, Nat.mod_mul_right_mod]

/-- `be` undoes `bytes_be` (spec/00_scope.md section 4). -/
theorem be_bytesBe (v n : Nat) : be (bytesBe v n) = v % 256 ^ n := by
  induction n with
  | zero => simp [bytesBe, be, Nat.mod_one]
  | succ n ih =>
    simp only [bytesBe, be, length_bytesBe, ih, BitVec.toNat_ofNat]
    rw [show (2 : Nat) ^ 8 = 256 from rfl, pow_succ 256 n, Nat.mod_mul, Nat.mul_comm, Nat.add_comm]

/-- `bytes_be` undoes `be`: no two sequences of one length are the same integer. -/
theorem bytesBe_be (s : Bytes) : bytesBe (be s) s.length = s := by
  induction s with
  | nil => rfl
  | cons b s ih =>
    have hlt := be_lt s
    have hpos : 0 < 256 ^ s.length := by positivity
    have hlow : bytesBe (b.toNat * 256 ^ s.length + be s) s.length = s := by
      conv_rhs => rw [← ih]
      rw [← bytesBe_mod _ _ s.length le_rfl, Nat.mul_add_mod_self_right, Nat.mod_eq_of_lt hlt]
    simp only [List.length_cons, be, bytesBe, hlow]
    congr 1
    rw [Nat.add_comm, Nat.add_mul_div_right _ _ hpos, Nat.div_eq_of_lt hlt]
    simp

@[simp] theorem length_bytesOfBlock (b : Block) : (bytesOfBlock b).length = 16 := length_bytesBe _ _

@[simp] theorem blockOfBytes_bytesOfBlock (b : Block) : blockOfBytes (bytesOfBlock b) = b := by
  apply BitVec.eq_of_toNat_eq
  have := b.isLt
  simp only [blockOfBytes, bytesOfBlock, be_bytesBe, BitVec.toNat_ofNat]
  omega

theorem bytesOfBlock_blockOfBytes (s : Bytes) (h : s.length = 16) :
    bytesOfBlock (blockOfBytes s) = s := by
  have hlt := be_lt s
  rw [h] at hlt
  have hn : (blockOfBytes s).toNat = be s := by
    rw [blockOfBytes, BitVec.toNat_ofNat]; exact Nat.mod_eq_of_lt (by norm_num at hlt ⊢; omega)
  rw [bytesOfBlock, hn, ← h, bytesBe_be]

theorem keyOfBytes_bytesOfKey (k : Key) : keyOfBytes (bytesOfKey k) = k := by
  apply BitVec.eq_of_toNat_eq
  have := k.isLt
  simp only [keyOfBytes, bytesOfKey, be_bytesBe, BitVec.toNat_ofNat]
  omega

/-- `XOR` of blocks is `XOR` of their bytes. -/
@[simp] theorem blockByte_xor (a b : Block) (k : Fin 16) :
    blockByte (a ^^^ b) k = blockByte a k ^^^ blockByte b k := by
  simp only [blockByte]
  ext i hi
  simp

/-- Byte `k` of a block, read off its byte sequence. -/
theorem getElem?_bytesOfBlock (b : Block) (k : Fin 16) :
    (bytesOfBlock b)[k.val]? = some (blockByte b k) := by
  have h : ∀ (n j : Nat), j < n → (bytesBe b.toNat n)[j]? =
      some (BitVec.ofNat 8 (b.toNat / 256 ^ (n - 1 - j))) := by
    intro n
    induction n with
    | zero => omega
    | succ n ih =>
      intro j hj
      rcases j with _ | j
      · simp [bytesBe]
      · rw [bytesBe, List.getElem?_cons_succ, ih j (by omega)]
        congr 4
        omega
  rw [bytesOfBlock, h 16 k.val k.isLt, blockByte]
  congr 1
  apply BitVec.eq_of_toNat_eq
  have e : (256 : Nat) ^ (16 - 1 - k.val) = 2 ^ (8 * (15 - k.val)) := by
    rw [show (256 : Nat) = 2 ^ 8 from rfl, ← pow_mul]
  simp only [BitVec.toNat_ofNat, BitVec.extractLsb'_toNat, Nat.shiftRight_eq_div_pow, e]

@[simp] theorem length_blocksOf (s : Bytes) : (blocksOf s).length = s.length / 16 := by
  simp [blocksOf]

@[simp] theorem getElem?_blocksOf (s : Bytes) (i : Nat) (h : i < s.length / 16) :
    (blocksOf s)[i]? = some (blk s i) := by
  simp [blocksOf, List.getElem?_range h]

@[simp] theorem length_bytesOfBlocks (bs : List Block) :
    (bytesOfBlocks bs).length = 16 * bs.length := by
  induction bs with
  | nil => rfl
  | cons b bs ih =>
    simp only [bytesOfBlocks, List.flatMap_cons, List.length_append, length_bytesOfBlock,
      List.length_cons] at ih ⊢
    omega

/-- Block `i` of a sequence built from blocks is block `i` of them. -/
theorem blk_bytesOfBlocks (bs : List Block) (i : Nat) (h : i < bs.length) :
    bs[i]? = some (blk (bytesOfBlocks bs) i) := by
  induction bs generalizing i with
  | nil => simp at h
  | cons b bs ih =>
    rcases i with _ | i
    · simp [blk, memRead, bytesOfBlocks]
    · have hd : (bytesOfBlocks (b :: bs)).drop (16 * (i + 1)) = (bytesOfBlocks bs).drop (16 * i) := by
        rw [show 16 * (i + 1) = (bytesOfBlock b).length + 16 * i by simp; ring]
        simp [bytesOfBlocks, List.drop_append]
      rw [List.getElem?_cons_succ, ih i (by simpa using h)]
      simp only [blk, memRead, hd]

/-- Cutting a sequence built from blocks into blocks gives the blocks back. -/
@[simp] theorem blocksOf_bytesOfBlocks (bs : List Block) : blocksOf (bytesOfBlocks bs) = bs := by
  apply List.ext_getElem?
  intro i
  by_cases h : i < bs.length
  · rw [getElem?_blocksOf _ _ (by simpa using h), blk_bytesOfBlocks bs i h]
  · rw [List.getElem?_eq_none (by simpa using h), List.getElem?_eq_none (by simpa using h)]

/-- The first block of a sequence, and the blocks of the rest. -/
theorem blocksOf_append (a b : Bytes) (h : a.length = 16) :
    blocksOf (a ++ b) = blockOfBytes a :: blocksOf b := by
  have hl : (a ++ b).length / 16 = b.length / 16 + 1 := by simp; omega
  rw [blocksOf, hl, List.range_succ_eq_map, List.map_cons, List.map_map, blocksOf]
  congr 1
  · simp [blk, memRead, ← h]
  · apply List.map_congr_left
    intro i _
    have hd : (a ++ b).drop (16 * (i + 1)) = b.drop (16 * i) := by
      rw [show 16 * (i + 1) = a.length + 16 * i by omega]; simp [List.drop_append]
    simp only [Function.comp, blk, memRead, Nat.succ_eq_add_one, hd]

/-- A sequence of whole blocks is what its blocks build. -/
theorem bytesOfBlocks_blocksOf (s : Bytes) (h : s.length % 16 = 0) : bytesOfBlocks (blocksOf s) = s := by
  generalize hn : s.length / 16 = n
  induction n generalizing s with
  | zero =>
    have : s = [] := List.eq_nil_of_length_eq_zero (by omega)
    subst this; rfl
  | succ n ih =>
    obtain ⟨a, b, rfl, ha⟩ : ∃ a b, s = a ++ b ∧ a.length = 16 :=
      ⟨s.take 16, s.drop 16, (List.take_append_drop 16 s).symm, by simp; omega⟩
    rw [List.length_append] at h hn
    rw [blocksOf_append a b ha, bytesOfBlocks, List.flatMap_cons, bytesOfBlock_blockOfBytes a ha]
    congr 1
    exact ih b (by omega) (by omega)

end Sys2Proof.Machine
end

