-- ==== Sys2Proof/Laws/Aes256.lean ====
section
/-! SUPPORT. What the parts of a round of AES-256 can do, said once: the product is additive, and each
part has its inverse. -/

namespace Sys2Proof.Machine

/-- `xtime` by the top bit. -/
theorem xtime_eq (a : Byte) : xtime a = (a <<< 1) ^^^ (if a.getLsbD 7 then 0x1B else 0) := by
  revert a; decide +kernel

theorem xtime_xor (a a' : Byte) : xtime (a ^^^ a') = xtime a ^^^ xtime a' := by
  rw [xtime_eq, xtime_eq, xtime_eq, BitVec.getLsbD_xor, BitVec.shiftLeft_xor_distrib]
  cases a.getLsbD 7 <;> cases a'.getLsbD 7 <;> simp
  · ac_rfl
  · ac_rfl
  · have h : ∀ x y z : Byte, x ^^^ y = (x ^^^ z) ^^^ (y ^^^ z) := fun x y z => by
      have : (x ^^^ z) ^^^ (y ^^^ z) = (x ^^^ y) ^^^ (z ^^^ z) := by ac_rfl
      rw [this]; simp
    exact h _ _ _

theorem gfMulBits_xor (n : Nat) (a a' b : Byte) :
    gfMulBits n (a ^^^ a') b = gfMulBits n a b ^^^ gfMulBits n a' b := by
  induction n generalizing a a' b with
  | zero => simp [gfMulBits]
  | succ n ih =>
    simp only [gfMulBits, xtime_xor, ih]
    split
    · ac_rfl
    · simp

/-- The product distributes over sums (rule R130). -/
theorem gfMul_xor (a a' b : Byte) : gfMul (a ^^^ a') b = gfMul a b ^^^ gfMul a' b :=
  gfMulBits_xor 8 a a' b

theorem invSbox_sbox (a : Byte) : invSbox (sbox a) = a := by revert a; decide +kernel

theorem sbox_invSbox (a : Byte) : sbox (invSbox a) = a := by revert a; decide +kernel

/-- The columns of the product of the two matrices, on one byte. -/
theorem invMix_mix_byte (a : Byte) :
    gfMul (gfMul a 2) 0x0e ^^^ gfMul (gfMul a 1) 0x0b ^^^ gfMul (gfMul a 1) 0x0d ^^^
        gfMul (gfMul a 3) 0x09 = a ∧
      gfMul (gfMul a 3) 0x0e ^^^ gfMul (gfMul a 2) 0x0b ^^^ gfMul (gfMul a 1) 0x0d ^^^
        gfMul (gfMul a 1) 0x09 = 0 ∧
      gfMul (gfMul a 1) 0x0e ^^^ gfMul (gfMul a 3) 0x0b ^^^ gfMul (gfMul a 2) 0x0d ^^^
        gfMul (gfMul a 1) 0x09 = 0 ∧
      gfMul (gfMul a 1) 0x0e ^^^ gfMul (gfMul a 1) 0x0b ^^^ gfMul (gfMul a 3) 0x0d ^^^
        gfMul (gfMul a 2) 0x09 = 0 := by
  revert a; decide +kernel

theorem mix_invMix_byte (a : Byte) :
    gfMul (gfMul a 0x0e) 2 ^^^ gfMul (gfMul a 0x09) 3 ^^^ gfMul (gfMul a 0x0d) 1 ^^^
        gfMul (gfMul a 0x0b) 1 = a ∧
      gfMul (gfMul a 0x0b) 2 ^^^ gfMul (gfMul a 0x0e) 3 ^^^ gfMul (gfMul a 0x09) 1 ^^^
        gfMul (gfMul a 0x0d) 1 = 0 ∧
      gfMul (gfMul a 0x0d) 2 ^^^ gfMul (gfMul a 0x0b) 3 ^^^ gfMul (gfMul a 0x0e) 1 ^^^
        gfMul (gfMul a 0x09) 1 = 0 ∧
      gfMul (gfMul a 0x09) 2 ^^^ gfMul (gfMul a 0x0d) 3 ^^^ gfMul (gfMul a 0x0b) 1 ^^^
        gfMul (gfMul a 0x0e) 1 = 0 := by
  revert a; decide +kernel

theorem xor_rotate (a b c d : Byte) : a ^^^ b ^^^ c ^^^ d = b ^^^ c ^^^ d ^^^ a := by ac_rfl

/-- Sixteen summands, regrouped by columns. -/
theorem xor_transpose (a0 a1 a2 a3 b0 b1 b2 b3 c0 c1 c2 c3 d0 d1 d2 d3 : Byte) :
    (a0 ^^^ b0 ^^^ c0 ^^^ d0) ^^^ (a1 ^^^ b1 ^^^ c1 ^^^ d1) ^^^ (a2 ^^^ b2 ^^^ c2 ^^^ d2) ^^^
        (a3 ^^^ b3 ^^^ c3 ^^^ d3) =
      (a0 ^^^ a1 ^^^ a2 ^^^ a3) ^^^ (b0 ^^^ b1 ^^^ b2 ^^^ b3) ^^^ (c0 ^^^ c1 ^^^ c2 ^^^ c3) ^^^
        (d0 ^^^ d1 ^^^ d2 ^^^ d3) := by
  ac_rfl

/-- `InvMixColumns` undoes `MixColumns` on a column (rules R133, R135). -/
theorem invMix_mix (w : AesWord) : mixWord 0x0e 0x0b 0x0d 0x09 (mixWord 2 3 1 1 w) = w := by
  obtain ⟨a, b, c, d⟩ := w
  obtain ⟨a0, a1, a2, a3⟩ := invMix_mix_byte a
  obtain ⟨b0, b1, b2, b3⟩ := invMix_mix_byte b
  obtain ⟨c0, c1, c2, c3⟩ := invMix_mix_byte c
  obtain ⟨d0, d1, d2, d3⟩ := invMix_mix_byte d
  simp only [mixWord, gfMul_xor, AesWord.mk.injEq]
  refine ⟨?_, ?_, ?_, ?_⟩
  · rw [xor_transpose, a0, b1, c2, d3]; simp
  · rw [xor_rotate, xor_transpose, a3, b0, c1, d2]; simp
  · rw [xor_rotate, xor_rotate, xor_transpose, a2, b3, c0, d1]; simp
  · rw [xor_rotate, xor_rotate, xor_rotate, xor_transpose, a1, b2, c3, d0]; simp

/-- `MixColumns` undoes `InvMixColumns` on a column (rules R133, R135). -/
theorem mix_invMix (w : AesWord) : mixWord 2 3 1 1 (mixWord 0x0e 0x0b 0x0d 0x09 w) = w := by
  obtain ⟨a, b, c, d⟩ := w
  obtain ⟨a0, a1, a2, a3⟩ := mix_invMix_byte a
  obtain ⟨b0, b1, b2, b3⟩ := mix_invMix_byte b
  obtain ⟨c0, c1, c2, c3⟩ := mix_invMix_byte c
  obtain ⟨d0, d1, d2, d3⟩ := mix_invMix_byte d
  simp only [mixWord, gfMul_xor, AesWord.mk.injEq]
  refine ⟨?_, ?_, ?_, ?_⟩
  · rw [xor_transpose, a0, b1, c2, d3]; simp
  · rw [xor_rotate, xor_transpose, a3, b0, c1, d2]; simp
  · rw [xor_rotate, xor_rotate, xor_transpose, a2, b3, c0, d1]; simp
  · rw [xor_rotate, xor_rotate, xor_rotate, xor_transpose, a1, b2, c3, d0]; simp

theorem invMixColumns_mixColumns (s : AesBlock) : invMixColumns (mixColumns s) = s := by
  simp only [invMixColumns, mixColumns, invMix_mix]

theorem mixColumns_invMixColumns (s : AesBlock) : mixColumns (invMixColumns s) = s := by
  simp only [invMixColumns, mixColumns, mix_invMix]

theorem invShiftRows_shiftRows (s : AesBlock) : invShiftRows (shiftRows s) = s := rfl

theorem shiftRows_invShiftRows (s : AesBlock) : shiftRows (invShiftRows s) = s := rfl

theorem invSubBytes_subBytes (s : AesBlock) : invSubBytes (subBytes s) = s := by
  simp only [invSubBytes, subBytes, invSubWord, subWord, invSbox_sbox]

theorem subBytes_invSubBytes (s : AesBlock) : subBytes (invSubBytes s) = s := by
  simp only [invSubBytes, subBytes, invSubWord, subWord, sbox_invSbox]

theorem addRoundKey_addRoundKey (s k : AesBlock) : addRoundKey (addRoundKey s k) k = s := by
  simp only [addRoundKey, xorWord, BitVec.xor_assoc, BitVec.xor_self, BitVec.xor_zero]

theorem getLsbD_bitsOfWord (w : AesWord) (i : Nat) :
    (bitsOfWord w).getLsbD i =
      if i < 8 then w.b3.getLsbD i else if i < 16 then w.b2.getLsbD (i - 8)
      else if i < 24 then w.b1.getLsbD (i - 16) else w.b0.getLsbD (i - 24) := by
  unfold bitsOfWord
  rw [BitVec.getLsbD_append, BitVec.getLsbD_append, BitVec.getLsbD_append]
  split_ifs <;> first | rfl | omega

theorem getLsbD_blockOfAes (s : AesBlock) (i : Nat) :
    (blockOfAes s).getLsbD i =
      if i < 32 then (bitsOfWord s.c3).getLsbD i else if i < 64 then (bitsOfWord s.c2).getLsbD (i - 32)
      else if i < 96 then (bitsOfWord s.c1).getLsbD (i - 64)
      else (bitsOfWord s.c0).getLsbD (i - 96) := by
  unfold blockOfAes
  rw [BitVec.getLsbD_append, BitVec.getLsbD_append, BitVec.getLsbD_append]
  split_ifs <;> first | rfl | omega

theorem getLsbD_blockByte (b : Block) (k : Fin 16) (i : Nat) :
    (blockByte b k).getLsbD i = (decide (i < 8) && b.getLsbD (8 * (15 - k.val) + i)) := by
  rw [blockByte, BitVec.getLsbD_extractLsb']

/-- A block is read out as it was read in (rule R130). -/
theorem blockOfAes_aesOfBlock (b : Block) : blockOfAes (aesOfBlock b) = b := by
  apply BitVec.eq_of_getLsbD_eq
  intro i hi
  rw [getLsbD_blockOfAes]
  simp only [getLsbD_bitsOfWord, aesOfBlock, getLsbD_blockByte]
  interval_cases i <;> simp

/-- A state is read in as it was read out (rule R130). -/
theorem aesOfBlock_blockOfAes (s : AesBlock) : aesOfBlock (blockOfAes s) = s := by
  have h : ∀ k i, i < 8 →
      (blockByte (blockOfAes s) k).getLsbD i = (blockOfAes s).getLsbD (8 * (15 - k.val) + i) := by
    intro k i hi; rw [getLsbD_blockByte]; simp [hi]
  rcases s with ⟨⟨a0, a1, a2, a3⟩, ⟨b0, b1, b2, b3⟩, ⟨c0, c1, c2, c3⟩, ⟨d0, d1, d2, d3⟩⟩
  simp only [aesOfBlock, AesBlock.mk.injEq, AesWord.mk.injEq]
  refine ⟨⟨?_, ?_, ?_, ?_⟩, ⟨?_, ?_, ?_, ?_⟩, ⟨?_, ?_, ?_, ?_⟩, ⟨?_, ?_, ?_, ?_⟩⟩ <;>
    (apply BitVec.eq_of_getLsbD_eq; intro i hi; rw [h _ _ hi, getLsbD_blockOfAes]
     simp only [getLsbD_bitsOfWord]; interval_cases i <;> rfl)

end Sys2Proof.Machine
end

