-- ==== Sys2Proof/Laws/Decode.lean ====
section
/-! SUPPORT. What receiving and reading a packet can do, said once. -/

namespace Sys2Proof

open Sys2Proof.Machine

/-- The 8 header bytes of a header that `assemble` writes, read back. -/
theorem readHeader_cons (b0 b1 b2 b3 b4 b5 b6 b7 : Byte) (rest : Bytes) :
    readHeader (b0 :: b1 :: b2 :: b3 :: b4 :: b5 :: b6 :: b7 :: rest) =
      some (⟨b0, b1, b2, b3, BitVec.ofNat 32 (be [b4, b5, b6, b7])⟩, rest) := rfl

/-- Four bytes are the four bytes of their integer. -/
theorem exists_bytesBe_four (v : Nat) :
    ∃ b4 b5 b6 b7, bytesBe v 4 = [b4, b5, b6, b7] ∧ be [b4, b5, b6, b7] = v % 2 ^ 32 :=
  ⟨_, _, _, _, rfl, by have := be_bytesBe v 4; simpa [bytesBe] using this⟩

/-- Reading the header of a stream that begins with eight bytes written field by field. -/
theorem readHeader_fields (op ctx klen ivlen : Byte) (dlen : Nat) (rest : Bytes) :
    readHeader ([op, ctx, klen, ivlen] ++ bytesBe dlen 4 ++ rest) =
      some (⟨op, ctx, klen, ivlen, BitVec.ofNat 32 dlen⟩, rest) := by
  obtain ⟨b4, b5, b6, b7, h, hv⟩ := exists_bytesBe_four dlen
  rw [h]
  simp only [List.cons_append, List.nil_append, readHeader_cons, hv]
  congr 3
  apply BitVec.eq_of_toNat_eq
  simp

/-- Cutting the payloads off a stream that begins with them. -/
theorem cutPayloads_append (h : Header) (key iv data rest : Bytes) (hk : key.length = h.klen.toNat)
    (hi : iv.length = h.ivlen.toNat) (hd : data.length = h.dlen.toNat) :
    cutPayloads h (key ++ (iv ++ (data ++ rest))) = (⟨h, key, iv, data⟩, rest) := by
  have h3 : (key ++ (iv ++ (data ++ rest))).drop (key.length + iv.length + data.length) = rest := by
    rw [← List.append_assoc, ← List.append_assoc]
    exact List.drop_left' (by simp [Nat.add_assoc])
  have h2 : (key ++ (iv ++ (data ++ rest))).drop (key.length + iv.length) = data ++ rest := by
    rw [← List.append_assoc]; exact List.drop_left' (by simp)
  simp [cutPayloads, payloadLength, ← hk, ← hi, ← hd, h2, h3]

/-- A stream that begins with a whole packet is received as that packet. -/
theorem receivePacket_of_fields (h : Header) (key iv data rest : Bytes)
    (hk : key.length = h.klen.toNat) (hi : iv.length = h.ivlen.toNat)
    (hd : data.length = h.dlen.toNat) :
    receivePacket ([h.op, h.ctx, h.klen, h.ivlen] ++ bytesBe h.dlen.toNat 4 ++
      (key ++ (iv ++ (data ++ rest)))) = some (⟨h, key, iv, data⟩, rest) := by
  rw [receivePacket, readHeader_fields]
  have hh : (⟨h.op, h.ctx, h.klen, h.ivlen, BitVec.ofNat 32 h.dlen.toNat⟩ : Header) = h := by
    simp
  simp only [hh]
  rw [if_neg (by simp [payloadLength]; omega), cutPayloads_append h key iv data rest hk hi hd]

/-- A header that was read is the first eight bytes. -/
theorem readHeader_eq_some {bs rest : Bytes} {h : Header} (e : readHeader bs = some (h, rest)) :
    bs = [h.op, h.ctx, h.klen, h.ivlen] ++ bytesBe h.dlen.toNat 4 ++ rest := by
  unfold readHeader at e
  split at e
  · rename_i b0 b1 b2 b3 b4 b5 b6 b7 l
    simp only [Option.some.injEq, Prod.mk.injEq] at e
    obtain ⟨rfl, rfl⟩ := e
    have hv : (BitVec.ofNat 32 (be [b4, b5, b6, b7])).toNat = be [b4, b5, b6, b7] := by
      have hlt := be_lt [b4, b5, b6, b7]
      simp only [List.length_cons, List.length_nil, Nat.reduceAdd, Nat.reducePow] at hlt
      rw [BitVec.toNat_ofNat]
      exact Nat.mod_eq_of_lt hlt
    have hb := bytesBe_be [b4, b5, b6, b7]
    simp only [List.length_cons, List.length_nil, Nat.reduceAdd] at hb
    simp only [hv, hb, List.cons_append, List.nil_append]
  · cases e

/-- Cutting the payloads loses no byte. -/
theorem cutPayloads_spec (h : Header) (l : Bytes) (hl : payloadLength h ≤ l.length) :
    (cutPayloads h l).1.header = h ∧ (cutPayloads h l).1.key.length = h.klen.toNat ∧
      (cutPayloads h l).1.iv.length = h.ivlen.toNat ∧
      (cutPayloads h l).1.data.length = h.dlen.toNat ∧
      l = (cutPayloads h l).1.key ++ ((cutPayloads h l).1.iv ++
        ((cutPayloads h l).1.data ++ (cutPayloads h l).2)) := by
  unfold payloadLength at hl
  refine ⟨rfl, by simp [cutPayloads]; omega, by simp [cutPayloads]; omega,
    by simp [cutPayloads]; omega, ?_⟩
  simp only [cutPayloads, payloadLength]
  have e1 : l.drop (h.klen.toNat + h.ivlen.toNat) = (l.drop h.klen.toNat).drop h.ivlen.toNat := by
    rw [List.drop_drop]
  have e2 : l.drop (h.klen.toNat + h.ivlen.toNat + h.dlen.toNat) =
      ((l.drop h.klen.toNat).drop h.ivlen.toNat).drop h.dlen.toNat := by
    rw [List.drop_drop, List.drop_drop, Nat.add_assoc]
  rw [e1, e2, List.take_append_drop, List.take_append_drop, List.take_append_drop]

/-- What a received packet is: its payloads have the declared lengths, and with the header they are the
bytes consumed. -/
theorem receivePacket_eq_some {bs rest : Bytes} {p : Packet} (h : receivePacket bs = some (p, rest)) :
    p.key.length = p.header.klen.toNat ∧ p.iv.length = p.header.ivlen.toNat ∧
      p.data.length = p.header.dlen.toNat ∧
      bs = [p.header.op, p.header.ctx, p.header.klen, p.header.ivlen] ++
        bytesBe p.header.dlen.toNat 4 ++ (p.key ++ (p.iv ++ (p.data ++ rest))) := by
  unfold receivePacket at h
  split at h
  · cases h
  · rename_i hd l hr
    split at h
    · cases h
    · rename_i hlen
      obtain ⟨h1, h2, h3, h4, h5⟩ := cutPayloads_spec hd l (not_lt.mp hlen)
      rw [Option.some.injEq] at h
      rw [h] at h1 h2 h3 h4 h5
      dsimp only at h1 h2 h3 h4 h5
      rw [h1]
      exact ⟨h2, h3, h4, by rw [← h5]; exact readHeader_eq_some hr⟩

/-- What the decoder answers, by cases of receiving and reading. -/
theorem decode_eq_command_iff {bs rest : Bytes} {i : Instr} :
    decode bs = .command i rest ↔ ∃ p, receivePacket bs = some (p, rest) ∧ readPacket p = .ok i := by
  unfold decode
  split
  · simp_all
  · rename_i p r hr
    split <;> simp_all [and_comm]

theorem decode_eq_illegal_iff {bs rest : Bytes} {op : Byte} {why : IllegalCause} :
    decode bs = .illegal op why rest ↔
      ∃ p, receivePacket bs = some (p, rest) ∧ readPacket p = .error why ∧ p.header.op = op := by
  unfold decode
  split
  · simp_all
  · rename_i p r hr
    split <;> simp_all
    aesop

theorem decode_eq_incomplete_iff {bs : Bytes} :
    decode bs = .incomplete ↔ receivePacket bs = none := by
  unfold decode
  split
  · simp_all
  · rename_i p r hr
    split <;> simp_all

/-- The opcode of each mnemonic selects it. -/
@[simp] theorem mnemonicOf_opByte (m : Mnemonic) : mnemonicOf (opByte m) = some m := by
  cases m <;> rfl

/-- An opcode selects a mnemonic only by being its opcode. -/
theorem eq_opByte_of_mnemonicOf {op : Byte} {m : Mnemonic} (h : mnemonicOf op = some m) :
    op = opByte m := by
  unfold mnemonicOf at h
  split at h <;> simp at h <;> subst h <;> rename_i he <;>
    exact BitVec.eq_of_toNat_eq (by rw [he]; rfl)

end Sys2Proof
end

