-- ==== Sys2Proof/Laws/Operands.lean ====
section
/-! SUPPORT. The length preconditions as propositions, and the IVs as blocks of their bytes. -/

namespace Sys2Proof.Machine

theorem wholeBlocks_iff (data : Bytes) :
    wholeBlocks data = true ↔ data.length ≠ 0 ∧ data.length % 16 = 0 := by
  simp [wholeBlocks, Config.blockBytes]

theorem igeLengthsOk_iff (key iv data : Bytes) :
    igeLengthsOk key iv data = true ↔
      data.length ≠ 0 ∧ data.length % 16 = 0 ∧ key.length = 32 ∧ iv.length = 32 := by
  simp only [igeLengthsOk, Bool.and_eq_true, wholeBlocks_iff, decide_eq_true_eq, Config.keyBytes,
    Config.igeIvBytes, and_assoc]

theorem cbcLengthsOk_iff (key iv data : Bytes) :
    cbcLengthsOk key iv data = true ↔
      data.length ≠ 0 ∧ data.length % 16 = 0 ∧ key.length = 32 ∧ iv.length = 16 := by
  simp only [cbcLengthsOk, Bool.and_eq_true, wholeBlocks_iff, decide_eq_true_eq, Config.keyBytes,
    Config.cbcIvBytes, and_assoc]

theorem ctrNewLengthOk_iff (iv : Bytes) : ctrNewLengthOk iv = true ↔ iv.length = 16 := by
  simp [ctrNewLengthOk, Config.ctrIvBytes]

theorem ctrApplyLengthsOk_iff (key data : Bytes) :
    ctrApplyLengthsOk key data = true ↔ data.length ≠ 0 ∧ key.length = 32 := by
  simp only [ctrApplyLengthsOk, Bool.and_eq_true, decide_eq_true_eq, Config.keyBytes]

theorem factorLengthOk_iff (data : Bytes) : factorLengthOk data = true ↔ data.length = 8 := by
  simp [factorLengthOk, Config.factorBytes]

/-- The first half of an IGE IV is its block 0 (rule R83). -/
theorem igeIv1_eq_blk (iv : Bytes) : igeIv1 iv = blk iv 0 := rfl

/-- The second half of an IGE IV is its block 1 (rule R83). -/
theorem igeIv2_eq_blk (iv : Bytes) : igeIv2 iv = blk iv 1 := rfl

/-- The IV of CBC and CTR is its block 0. -/
theorem ivBlock_eq_blk (iv : Bytes) : ivBlock iv = blk iv 0 := rfl

/-- The block of a 16-byte IV has the IV's bytes. -/
theorem bytesOfBlock_ivBlock (iv : Bytes) (h : iv.length = 16) : bytesOfBlock (ivBlock iv) = iv := by
  rw [ivBlock, memRead, List.drop_zero, List.take_of_length_le (by omega),
    bytesOfBlock_blockOfBytes iv h]

end Sys2Proof.Machine
end

