-- ==== Sys2Proof/Laws/State.lean ====
section
/-! SUPPORT. One lemma per field and per update of the state, so that no later proof unfolds an
update. -/

namespace Sys2Proof.Machine.State

/-- Raising an error is a response without a result. -/
theorem raise_eq_respond (s : State) (op : Byte) (st : Status) : s.raise op st = s.respond op st [] :=
  rfl

@[simp] theorem raise_ctx (s : State) (op : Byte) (st : Status) : (s.raise op st).ctx = s.ctx := rfl

@[simp] theorem raise_command (s : State) (op : Byte) (st : Status) : (s.raise op st).command = s.command := rfl

@[simp] theorem raise_response (s : State) (op : Byte) (st : Status) : (s.raise op st).response = s.response ++ responsePacket op st [] := rfl

@[simp] theorem raise_searching (s : State) (op : Byte) (st : Status) : (s.raise op st).searching = s.searching := rfl

@[simp] theorem raise_draws (s : State) (op : Byte) (st : Status) : (s.raise op st).draws = s.draws := rfl

@[simp] theorem raise_params (s : State) (op : Byte) (st : Status) : (s.raise op st).params = s.params := rfl

@[simp] theorem respond_ctx (s : State) (op : Byte) (st : Status) (result : Bytes) :
    (s.respond op st result).ctx = s.ctx := rfl

@[simp] theorem respond_command (s : State) (op : Byte) (st : Status) (result : Bytes) :
    (s.respond op st result).command = s.command := rfl

@[simp] theorem respond_response (s : State) (op : Byte) (st : Status) (result : Bytes) :
    (s.respond op st result).response = s.response ++ responsePacket op st result := rfl

@[simp] theorem respond_searching (s : State) (op : Byte) (st : Status) (result : Bytes) :
    (s.respond op st result).searching = s.searching := rfl

@[simp] theorem respond_draws (s : State) (op : Byte) (st : Status) (result : Bytes) :
    (s.respond op st result).draws = s.draws := rfl

@[simp] theorem respond_params (s : State) (op : Byte) (st : Status) (result : Bytes) :
    (s.respond op st result).params = s.params := rfl

@[simp] theorem consumeTo_ctx (s : State) (rest : Bytes) : (s.consumeTo rest).ctx = s.ctx := rfl

@[simp] theorem consumeTo_command (s : State) (rest : Bytes) :
    (s.consumeTo rest).command = rest := rfl

@[simp] theorem consumeTo_response (s : State) (rest : Bytes) :
    (s.consumeTo rest).response = s.response := rfl

@[simp] theorem consumeTo_searching (s : State) (rest : Bytes) :
    (s.consumeTo rest).searching = s.searching := rfl

@[simp] theorem consumeTo_draws (s : State) (rest : Bytes) :
    (s.consumeTo rest).draws = s.draws := rfl

@[simp] theorem consumeTo_params (s : State) (rest : Bytes) :
    (s.consumeTo rest).params = s.params := rfl

@[simp] theorem setSlot_ctx (s : State) (ctx : Byte) (v : Option CtrState) :
    (s.setSlot ctx v).ctx = s.ctx.set ctx.toNat v := rfl

@[simp] theorem setSlot_command (s : State) (ctx : Byte) (v : Option CtrState) :
    (s.setSlot ctx v).command = s.command := rfl

@[simp] theorem setSlot_response (s : State) (ctx : Byte) (v : Option CtrState) :
    (s.setSlot ctx v).response = s.response := rfl

@[simp] theorem setSlot_searching (s : State) (ctx : Byte) (v : Option CtrState) :
    (s.setSlot ctx v).searching = s.searching := rfl

@[simp] theorem setSlot_draws (s : State) (ctx : Byte) (v : Option CtrState) :
    (s.setSlot ctx v).draws = s.draws := rfl

@[simp] theorem setSlot_params (s : State) (ctx : Byte) (v : Option CtrState) :
    (s.setSlot ctx v).params = s.params := rfl

@[simp] theorem countDraw_ctx (s : State) : (s.countDraw).ctx = s.ctx := rfl

@[simp] theorem countDraw_command (s : State) : (s.countDraw).command = s.command := rfl

@[simp] theorem countDraw_response (s : State) : (s.countDraw).response = s.response := rfl

@[simp] theorem countDraw_searching (s : State) : (s.countDraw).searching = s.searching := rfl

@[simp] theorem countDraw_draws (s : State) : (s.countDraw).draws = s.draws + 1 := rfl

@[simp] theorem countDraw_params (s : State) : (s.countDraw).params = s.params := rfl

@[simp] theorem searchForever_ctx (s : State) : (s.searchForever).ctx = s.ctx := rfl

@[simp] theorem searchForever_command (s : State) : (s.searchForever).command = s.command := rfl

@[simp] theorem searchForever_response (s : State) : (s.searchForever).response = s.response := rfl

@[simp] theorem searchForever_searching (s : State) : (s.searchForever).searching = true := rfl

@[simp] theorem searchForever_draws (s : State) : (s.searchForever).draws = s.draws := rfl

@[simp] theorem searchForever_params (s : State) : (s.searchForever).params = s.params := rfl

@[simp] theorem hostSend_ctx (s : State) (bs : Bytes) : (s.hostSend bs).ctx = s.ctx := rfl

@[simp] theorem hostSend_command (s : State) (bs : Bytes) :
    (s.hostSend bs).command = s.command ++ bs := rfl

@[simp] theorem hostSend_response (s : State) (bs : Bytes) :
    (s.hostSend bs).response = s.response := rfl

@[simp] theorem hostSend_searching (s : State) (bs : Bytes) :
    (s.hostSend bs).searching = s.searching := rfl

@[simp] theorem hostSend_draws (s : State) (bs : Bytes) : (s.hostSend bs).draws = s.draws := rfl

@[simp] theorem hostSend_params (s : State) (bs : Bytes) : (s.hostSend bs).params = s.params := rfl

@[simp] theorem hostTake_ctx (s : State) (n : Nat) : (s.hostTake n).ctx = s.ctx := rfl

@[simp] theorem hostTake_command (s : State) (n : Nat) : (s.hostTake n).command = s.command := rfl

@[simp] theorem hostTake_response (s : State) (n : Nat) :
    (s.hostTake n).response = s.response.drop n := rfl

@[simp] theorem hostTake_searching (s : State) (n : Nat) :
    (s.hostTake n).searching = s.searching := rfl

@[simp] theorem hostTake_draws (s : State) (n : Nat) : (s.hostTake n).draws = s.draws := rfl

@[simp] theorem hostTake_params (s : State) (n : Nat) : (s.hostTake n).params = s.params := rfl

@[simp] theorem hostReset_ctx (s : State) :
    (s.hostReset).ctx = List.replicate s.ctx.length none := rfl

@[simp] theorem hostReset_command (s : State) : (s.hostReset).command = [] := rfl

@[simp] theorem hostReset_response (s : State) : (s.hostReset).response = s.response := rfl

@[simp] theorem hostReset_searching (s : State) : (s.hostReset).searching = false := rfl

@[simp] theorem hostReset_draws (s : State) : (s.hostReset).draws = s.draws := rfl

@[simp] theorem hostReset_params (s : State) : (s.hostReset).params = s.params := rfl

@[simp] theorem withFetchWord_ctx (s : State) (nbits w : Nat) :
    (s.withFetchWord nbits w).ctx = s.ctx := rfl

@[simp] theorem withFetchWord_command (s : State) (nbits w : Nat) :
    (s.withFetchWord nbits w).command = tablePacket nbits w := rfl

@[simp] theorem withFetchWord_response (s : State) (nbits w : Nat) :
    (s.withFetchWord nbits w).response = s.response := rfl

@[simp] theorem withFetchWord_searching (s : State) (nbits w : Nat) :
    (s.withFetchWord nbits w).searching = false := rfl

@[simp] theorem withFetchWord_draws (s : State) (nbits w : Nat) :
    (s.withFetchWord nbits w).draws = s.draws := rfl

@[simp] theorem withFetchWord_params (s : State) (nbits w : Nat) :
    (s.withFetchWord nbits w).params = s.params := rfl

/-- The slots of the reset state, by number. -/
theorem resetWith_ctx (n : Nat) (p : Params) : (resetWith n p).ctx = List.replicate n none := rfl

/-- The number of slots of the reset state is within the spec's bounds. -/
theorem reset_ctx_length : reset.ctx.length = Config.nCtx := List.length_replicate

end Sys2Proof.Machine.State
end

