-- ==== Sys2Proof/Laws/Ops.lean ====
section
/-! SUPPORT. What each shared operation can do, said once: slots, responses, the byte and word forms of
the primitive. -/

namespace Sys2Proof.Machine

@[simp] theorem length_responsePacket (op : Byte) (st : Status) (result : Bytes) :
    (responsePacket op st result).length = 8 + result.length := by
  simp [responsePacket]; omega

/-- The five status codes are five different bytes. -/
theorem statusByte_injective : Function.Injective statusByte := by
  intro a b h
  cases a <;> cases b <;> simp_all [statusByte]

/-- A response packet says which response it is. -/
theorem responsePacket_inj {op op' : Byte} {st st' : Status} {r r' : Bytes}
    (h : responsePacket op st r = responsePacket op' st' r') : op = op' ∧ st = st' ∧ r = r' := by
  simp only [responsePacket, List.cons_append, List.nil_append, List.cons.injEq, true_and] at h
  obtain ⟨h1, h2, h3⟩ := h
  have h4 := List.append_inj h3 (by simp)
  exact ⟨h1, statusByte_injective h2, h4.2⟩

namespace State

theorem slot?_eq_none_iff (s : State) (ctx : Byte) :
    s.slot? ctx = none ↔ s.ctx.length ≤ ctx.toNat := List.getElem?_eq_none_iff

theorem slot?_setSlot_same (s : State) (ctx : Byte) (v : Option CtrState)
    (h : ctx.toNat < s.ctx.length) : (s.setSlot ctx v).slot? ctx = some v := by
  simp [slot?, setSlot, h]

theorem slot?_setSlot_other (s : State) (ctx other : Byte) (v : Option CtrState) (h : other ≠ ctx) :
    (s.setSlot ctx v).slot? other = s.slot? other := by
  have : ctx.toNat ≠ other.toNat := fun e => h (BitVec.eq_of_toNat_eq e.symm)
  simp [slot?, setSlot, this]

@[simp] theorem slot?_respond (s : State) (op : Byte) (st : Status) (r : Bytes) (ctx : Byte) :
    (s.respond op st r).slot? ctx = s.slot? ctx := rfl

@[simp] theorem slot?_raise (s : State) (op : Byte) (st : Status) (ctx : Byte) :
    (s.raise op st).slot? ctx = s.slot? ctx := rfl

@[simp] theorem slot?_consumeTo (s : State) (rest : Bytes) (ctx : Byte) :
    (s.consumeTo rest).slot? ctx = s.slot? ctx := rfl

/-- A slot that is there has a number below `N_CTX`. -/
theorem lt_of_slot?_eq_some {s : State} {ctx : Byte} {v : Option CtrState}
    (h : s.slot? ctx = some v) : ctx.toNat < s.ctx.length := (List.getElem?_eq_some_iff.mp h).1

@[simp] theorem length_ctx_setSlot (s : State) (ctx : Byte) (v : Option CtrState) :
    (s.setSlot ctx v).ctx.length = s.ctx.length := by simp

end State

end Sys2Proof.Machine
end

