-- ==== Sys2Proof/Laws/Modes.lean ====
section
/-! SUPPORT. What the loops of the modes compute, said once: lengths, splitting, byte by byte. -/

namespace Sys2Proof.Machine

@[simp] theorem length_igeEncBlocks (E : Block → Block) (ms : List Block) (a b : Block) :
    (igeEncBlocks E ms a b).length = ms.length := by
  induction ms generalizing a b with
  | nil => rfl
  | cons m ms ih => simp [igeEncBlocks, ih]

@[simp] theorem length_igeDecBlocks (D : Block → Block) (cs : List Block) (a b : Block) :
    (igeDecBlocks D cs a b).length = cs.length := by
  induction cs generalizing a b with
  | nil => rfl
  | cons c cs ih => simp [igeDecBlocks, ih]

@[simp] theorem length_cbcEncBlocks (E : Block → Block) (ms : List Block) (a : Block) :
    (cbcEncBlocks E ms a).length = ms.length := by
  induction ms generalizing a with
  | nil => rfl
  | cons m ms ih => simp [cbcEncBlocks, ih]

@[simp] theorem length_cbcDecBlocks (D : Block → Block) (cs : List Block) (a : Block) :
    (cbcDecBlocks D cs a).length = cs.length := by
  induction cs generalizing a with
  | nil => rfl
  | cons c cs ih => simp [cbcDecBlocks, ih]

theorem length_igeEncrypt (E : Block → Block) (iv data : Bytes) (h : data.length % 16 = 0) :
    (igeEncrypt E iv data).length = data.length := by
  simp only [igeEncrypt, length_bytesOfBlocks, length_igeEncBlocks, length_blocksOf]; omega

theorem length_igeDecrypt (D : Block → Block) (iv data : Bytes) (h : data.length % 16 = 0) :
    (igeDecrypt D iv data).length = data.length := by
  simp only [igeDecrypt, length_bytesOfBlocks, length_igeDecBlocks, length_blocksOf]; omega

theorem length_cbcEncrypt (E : Block → Block) (iv data : Bytes) (h : data.length % 16 = 0) :
    (cbcEncrypt E iv data).length = data.length := by
  simp only [cbcEncrypt, length_bytesOfBlocks, length_cbcEncBlocks, length_blocksOf]; omega

theorem length_cbcDecrypt (D : Block → Block) (iv data : Bytes) (h : data.length % 16 = 0) :
    (cbcDecrypt D iv data).length = data.length := by
  simp only [cbcDecrypt, length_bytesOfBlocks, length_cbcDecBlocks, length_blocksOf]; omega

@[simp] theorem length_ctrLoop (E : Block → Block) (data : Bytes) (ks ctr : Block) (off : Fin 16) :
    (ctrLoop E data ks ctr off).1.length = data.length := by
  induction data generalizing ks ctr off with
  | nil => rfl
  | cons d ds ih => simp [ctrLoop, ih]

@[simp] theorem length_ctrTransform (E : Block → Block) (c : CtrState) (data : Bytes) :
    (ctrTransform E c data).1.length = data.length := length_ctrLoop _ _ _ _ _

/-- The keystream block on entry does not matter to the loop when it would be computed anew. -/
theorem ctrLoop_zero (E : Block → Block) (data : Bytes) (ks ks' ctr : Block) :
    ctrLoop E data ks ctr 0 = ctrLoop E data ks' ctr 0 := by
  cases data <;> rfl

/-- One byte, and then the stream from the CTR State it leaves (rules R93, R97). -/
theorem ctrTransform_cons (E : Block → Block) (c : CtrState) (d : Byte) (ds : Bytes) :
    ctrTransform E c (d :: ds) =
      let c' : CtrState :=
        ⟨if c.byteOffset + 1 = 0 then inc128 c.counterIv else c.counterIv, c.byteOffset + 1⟩
      ((d ^^^ blockByte (E c.counterIv) c.byteOffset) :: (ctrTransform E c' ds).1,
        (ctrTransform E c' ds).2) := by
  have hks : (if c.byteOffset = 0 then E c.counterIv else E c.counterIv) = E c.counterIv := by simp
  simp only [ctrTransform, ctrLoop, hks]
  by_cases h : c.byteOffset + 1 = 0
  · simp only [h, if_true]
    rw [ctrLoop_zero E ds (E c.counterIv) (E (inc128 c.counterIv))]
  · simp only [h, if_false]

@[simp] theorem ctrTransform_nil (E : Block → Block) (c : CtrState) :
    ctrTransform E c [] = ([], c) := rfl

/-- What `FACTOR` searches among (rule R122). -/
theorem mem_properDivisors {pq g : Nat} : g ∈ properDivisors pq ↔ 1 < g ∧ g < pq ∧ g ∣ pq := by
  simp only [properDivisors, List.mem_filter, List.mem_range, Bool.and_eq_true, decide_eq_true_eq,
    Nat.dvd_iff_mod_eq_zero]
  tauto

end Sys2Proof.Machine
end

