-- ==== Sys2Proof/Laws/PerInstr.lean ====
section
/-! SUPPORT. What every command, as a term, is as a packet, one lemma a constructor: its header has no
nonzero must-be-zero field, and reading the packet gives the command back. -/

namespace Sys2Proof.Laws.PacketShape

open Sys2Proof

/-- The header that a command's packet begins with (rules R45, R58). -/
def header (i : Instr) : Header :=
  ⟨opByte i.mnemonic, i.ctxField, BitVec.ofNat 8 i.key.length, BitVec.ofNat 8 i.iv.length,
    BitVec.ofNat 32 i.data.length⟩

/-- The packet of a command. -/
def packet (i : Instr) : Packet := ⟨header i, i.key, i.iv, i.data⟩

/-- The packet of a command reads as that command (rules R48, R49, R56). -/
def Statement (i : Instr) : Prop := readPacket (packet i) = .ok i

theorem igeEnc (key iv data : Bytes) : Statement (.igeEnc key iv data) := rfl
theorem igeDec (key iv data : Bytes) : Statement (.igeDec key iv data) := rfl
theorem ctrNew (ctx : Byte) (iv : Bytes) : Statement (.ctrNew ctx iv) := rfl
theorem ctrApply (ctx : Byte) (key data : Bytes) : Statement (.ctrApply ctx key data) := rfl
theorem ctrFree (ctx : Byte) : Statement (.ctrFree ctx) := rfl
theorem ctrRead (ctx : Byte) : Statement (.ctrRead ctx) := rfl
theorem cbcEnc (key iv data : Bytes) : Statement (.cbcEnc key iv data) := rfl
theorem cbcDec (key iv data : Bytes) : Statement (.cbcDec key iv data) := rfl
theorem factor (data : Bytes) : Statement (.factor data) := rfl

end Sys2Proof.Laws.PacketShape
end

