-- ==== Sys2Proof/Laws/Step.lean ====
section
/-! SUPPORT. What a step is, by what the decoder makes of the command port. -/

namespace Sys2Proof.Machine

theorem step_of_searching {s : State} (h : s.searching = true) : step s = .next s := by
  simp [step, h]

theorem step_of_incomplete {s : State} (h : decode s.command = .incomplete) : step s = .next s := by
  simp only [step, h, ite_self]

theorem step_of_illegal {s : State} {op : Byte} {why : IllegalCause} {rest : Bytes}
    (hs : s.searching = false) (h : decode s.command = .illegal op why rest) :
    step s = .next ((s.consumeTo rest).raise op .illegalCommand) := by
  simp [step, hs, h]

/-- A step either leaves the state alone, or answers an illegal packet, or runs a command. -/
theorem step_cases (s : State) :
    step s = .next s ∨
      (∃ op why rest, s.searching = false ∧ decode s.command = .illegal op why rest ∧
        step s = .next ((s.consumeTo rest).raise op .illegalCommand)) ∨
      ∃ i rest, s.searching = false ∧ decode s.command = .command i rest ∧
        step s = exec i (s.consumeTo rest) := by
  cases hs : s.searching
  · cases h : decode s.command with
    | incomplete => exact .inl (step_of_incomplete h)
    | illegal op why rest => exact .inr (.inl ⟨op, why, rest, rfl, rfl, step_of_illegal hs h⟩)
    | command i rest => exact .inr (.inr ⟨i, rest, rfl, rfl, by simp [step, hs, h]⟩)
  · exact .inl (step_of_searching hs)

end Sys2Proof.Machine
end

