-- ==== Sys2Proof/Tests/Slice0.lean ====
section
/-! SUPPORT. Small tests of one step or one operation, with expected values from
spec/95_test_vectors.md (the vector's name stands at each) or from the encoding tables of
spec/30_encoding.md, and for every statement that has hypotheses a state and operands that meet them. -/

namespace Sys2Proof.Tests

open Sys2Proof Sys2Proof.Machine

-- One theorem after another: many kernel evaluations at once take too many threads.
set_option Elab.async false

section Helpers

/-- `n` zero bytes. -/
def zeros (n : Nat) : Bytes := List.replicate n 0

/-- The operands of spec/95_test_vectors.md. -/
def k1 : Bytes := bytesBe 0x000102030405060708090a0b0c0d0e0f101112131415161718191a1b1c1d1e1f 32
def k2 : Bytes := bytesBe 0x202122232425262728292a2b2c2d2e2f303132333435363738393a3b3c3d3e3f 32
def v32 : Bytes := k2
def v16 : Bytes := bytesBe 0xa0a1a2a3a4a5a6a7a8a9aaabacadaeaf 16
def m16 : Bytes := bytesBe 0x404142434445464748494a4b4c4d4e4f 16
def m32 : Bytes := bytesBe 0x404142434445464748494a4b4c4d4e4f505152535455565758595a5b5c5d5e5f 32

def toy : Params := ⟨.toy16, false, none, 0⟩
def aes : Params := ⟨.aes256, false, none, 0⟩
def withUnit (budget : Option Nat) : Params := ⟨.toy16, true, budget, 7⟩

/-- Four slots, all invalid, and these bytes at the command port. -/
def fresh (p : Params) (command : Bytes) : State := { State.resetWith 4 p with command := command }

/-- The same, but slot 1 holds the CTR State `(iv, off)`. -/
def live (p : Params) (iv : Block) (off : Fin 16) (command : Bytes) : State :=
  { fresh p command with ctx := [none, some ⟨iv, off⟩, none, none] }

/-- What one step makes of the response port and of the slots. -/
def answer (s : State) : Option (Bytes × List (Option CtrState)) :=
  match step s with
  | .next t => some (t.response, t.ctx)
  | .fault _ => none
  | .refused _ => none

/-- The response alone. -/
def reply (s : State) : Option Bytes := (answer s).map Prod.fst

/-- A packet with payloads of zeros. -/
def zeroPacket (op ctx klen ivlen : Byte) (dlen : BitVec 32) : Packet :=
  ⟨⟨op, ctx, klen, ivlen, dlen⟩, zeros klen.toNat, zeros ivlen.toNat, zeros dlen.toNat⟩

/-- A state of parameters `p` at that packet. -/
def atZero (p : Params) (op ctx klen ivlen : Byte) (dlen : BitVec 32) : State :=
  fresh p (packetBytes (zeroPacket op ctx klen ivlen dlen))

end Helpers

section Form

theorem test_key_of_255_is_well_formed :
    (Instr.igeEnc (zeros 255) (zeros 255) [1]).wellFormed = true := by
  decide +kernel

theorem test_key_of_256_is_refused : (Instr.ctrApply 0 (zeros 256) [1]).wellFormed = false := by
  decide +kernel

theorem test_iv_of_256_is_refused : (Instr.ctrNew 0 (zeros 256)).wellFormed = false := by
  decide +kernel

theorem test_data_length_bound (n : Nat) :
    (Instr.factor (zeros n)).wellFormed = decide (n < 2 ^ 32) := by
  simp [Instr.wellFormed, Instr.key, Instr.iv, Instr.data, zeros]

theorem test_data_of_two_to_the_32_is_refused (n : Nat) (h : n = 2 ^ 32) :
    (Instr.factor (zeros n)).wellFormed = false := by
  rw [test_data_length_bound, h]; decide

/-! Decoding, one packet a row of rule R47, written byte by byte. -/

theorem test_decode_ige_enc :
    decode [0x01, 0, 2, 1, 0, 0, 0, 3, 10, 11, 12, 13, 14, 15, 99] =
      .command (.igeEnc [10, 11] [12] [13, 14, 15]) [99] := by decide

theorem test_decode_ige_dec :
    decode [0x02, 0, 1, 2, 0, 0, 0, 0, 10, 11, 12] = .command (.igeDec [10] [11, 12] []) [] := by decide

theorem test_decode_ctr_new :
    decode [0x03, 7, 0, 2, 0, 0, 0, 0, 10, 11] = .command (.ctrNew 7 [10, 11]) [] := by decide

/-- The header of vector E1 but for the lengths. -/
theorem test_decode_ctr_apply :
    decode [0x04, 2, 1, 0, 0, 0, 0, 2, 10, 11, 12] = .command (.ctrApply 2 [10] [11, 12]) [] := by decide

theorem test_decode_ctr_free : decode [0x05, 255, 0, 0, 0, 0, 0, 0] = .command (.ctrFree 255) [] := by
  decide

theorem test_decode_ctr_read : decode [0x06, 3, 0, 0, 0, 0, 0, 0, 1] = .command (.ctrRead 3) [1] := by
  decide

theorem test_decode_cbc_enc :
    decode [0x07, 0, 1, 1, 0, 0, 0, 1, 10, 11, 12] = .command (.cbcEnc [10] [11] [12]) [] := by decide

theorem test_decode_cbc_dec :
    decode [0x08, 0, 0, 3, 0, 0, 0, 1, 10, 11, 12, 13] = .command (.cbcDec [] [10, 11, 12] [13]) [] := by
  decide

theorem test_decode_factor :
    decode [0x09, 0, 0, 0, 0, 0, 0, 2, 10, 11] = .command (.factor [10, 11]) [] := by decide

/-- `DLEN` is big-endian: 258 bytes (rule R31). -/
theorem test_decode_dlen_is_big_endian :
    decode ([0x09, 0, 0, 0, 0, 0, 1, 2] ++ zeros 258) = .command (.factor (zeros 258)) [] := by
  decide +kernel

/-- Vector E2. -/
theorem test_decode_illegal_opcode_keeps_the_framing :
    decode [0x0a, 0, 1, 1, 0, 0, 0, 2, 0xaa, 0xbb, 0xcc, 0xdd, 0x06] =
      .illegal 0x0a .reservedOpcode [0x06] := by decide

/-- Vector F4. -/
theorem test_decode_surplus_context :
    decode [0x09, 1, 0, 0, 0, 0, 0, 1, 5, 6] = .illegal 0x09 .nonzeroField [6] := by decide

theorem test_decode_short_payload : decode [0x08, 0, 1, 1, 0, 0, 0, 1, 10, 11] = .incomplete := by decide

theorem test_encode_ctr_apply :
    encode (.ctrApply 2 [10] [11, 12]) = [0x04, 2, 1, 0, 0, 0, 0, 2, 10, 11, 12] := by decide

/-! The words of the opcode table: bits 63..56 are `OP`. -/

theorem test_table_words_of_the_stateless_rows :
    decodeTableWord 64 0x0100010200000001 = some (.igeEnc [0] [0, 0] [0]) ∧
    decodeTableWord 64 0x0200000000000001 = some (.igeDec [] [] [0]) ∧
    decodeTableWord 64 0x0700010000000000 = some (.cbcEnc [0] [] []) ∧
    decodeTableWord 64 0x0800000100000000 = some (.cbcDec [] [0] []) ∧
    decodeTableWord 64 0x0900000000000002 = some (.factor [0, 0]) := by decide

theorem test_table_words_of_the_slot_rows :
    decodeTableWord 64 0x0305000100000000 = some (.ctrNew 5 [0]) ∧
    decodeTableWord 64 0x0403010000000001 = some (.ctrApply 3 [0] [0]) ∧
    decodeTableWord 64 0x05ff000000000000 = some (.ctrFree 255) ∧
    decodeTableWord 64 0x0602000000000000 = some (.ctrRead 2) ∧
    decodeTableWord 64 0x0602010000000000 = none := by decide

/-- The first step after reset runs the word. -/
theorem test_fetch_word_runs_after_reset :
    step (State.reset.withFetchWord 64 0x0900000000000008) =
      .next { State.reset with response := [0x09, 0x80, 0, 0, 0, 0, 0, 0] } := rfl

end Form

section Vectors

/-- I3, and with it D11. -/
theorem test_ige_enc_toy :
    reply (fresh toy (encode (.igeEnc k1 v32 m16))) =
      some ([0x01, 0, 0, 0, 0, 0, 0, 16] ++ bytesBe 0x4042444a484ab4b2b0b2b4aaa8aaa4a2 16) := by
  decide +kernel

/-- S1, corrected. -/
theorem test_ige_enc_aes :
    reply (fresh aes (encode (.igeEnc (zeros 32) (zeros 32) (zeros 32)))) =
      some ([0x01, 0, 0, 0, 0, 0, 0, 32] ++
        bytesBe 0xdc95c078a2408989ad48a2149284208708c374848c228233c2b34f332bd2e9d3 32) := by
  decide +kernel

/-- I4. -/
theorem test_ige_dec_toy :
    reply (fresh toy (encode (.igeDec k1 v32 m32))) =
      some ([0x02, 0, 0, 0, 0, 0, 0, 32] ++
        bytesBe 0x13417f797371776963616f69131117194972bf54554e43b8515a474c4d565b40 32) := by
  decide +kernel

/-- I4. -/
theorem test_ige_dec_aes :
    reply (fresh aes (encode (.igeDec k1 v32 m32))) =
      some ([0x02, 0, 0, 0, 0, 0, 0, 32] ++
        bytesBe 0x890aaeaf778db7319db98c461350e35923112d66ff5b30e518409b9dffecc75f 32) := by
  decide +kernel

/-- B2, its first two blocks. -/
theorem test_cbc_enc_toy :
    reply (fresh toy (encode (.cbcEnc k1 v16 m32))) =
      some ([0x07, 0, 0, 0, 0, 0, 0, 32] ++
        bytesBe 0xf0f3f6f9fcff0205080b0e1114171a1db2b7c0c1c67374757a7f78797e7b7cdd 32) := by
  decide +kernel

/-- B6. -/
theorem test_cbc_enc_takes_no_ige_iv :
    reply (fresh toy (encode (.cbcEnc k1 v32 m16))) = some [0x07, 0x01, 0, 0, 0, 0, 0, 0] := by
  decide +kernel

/-- B4, B5. -/
theorem test_cbc_dec_toy :
    reply (fresh toy (encode (.cbcDec k1 v16 m32))) =
      some ([0x08, 0, 0, 0, 0, 0, 0, 32] ++
        bytesBe 0xb2918c8f8e8d80838a89b4b7b6b5b8bb62017c7f7e7d70737a7964676665686b 32) := by
  decide +kernel

/-- B4. -/
theorem test_cbc_dec_aes :
    reply (fresh aes (encode (.cbcDec k1 v16 m32))) =
      some ([0x08, 0, 0, 0, 0, 0, 0, 32] ++
        bytesBe 0x8f658e71fdf6289412ad8a1ed3b45e1b9e18cd2e48b78b739f4a7d5da5a7a43c 32) := by
  decide +kernel

/-- T12. -/
theorem test_ctr_new :
    answer (fresh toy (encode (.ctrNew 1 v16))) =
      some ([0x03, 0, 0, 0, 0, 0, 0, 0],
        [none, some ⟨0xa0a1a2a3a4a5a6a7a8a9aaabacadaeaf, 0⟩, none, none]) := by
  decide +kernel

/-- T12: `BadContext` before `InvalidLength`. -/
theorem test_ctr_new_on_a_live_slot :
    reply (live toy 5 3 (encode (.ctrNew 1 (zeros 15)))) = some [0x03, 0x81, 0, 0, 0, 0, 0, 0] := by
  decide +kernel

/-- T8: the counter wraps. -/
theorem test_ctr_apply_wraps :
    answer (live toy 0xffffffffffffffffffffffffffffffff 0 (encode (.ctrApply 1 k1 (zeros 17)))) =
      some ([0x04, 0, 0, 0, 0, 0, 0, 17] ++ bytesBe 0x0f1215181b1e2124272a2d303336393c10 17,
        [none, some ⟨0, 1⟩, none, none]) := by
  decide +kernel

/-- T11: the second command, with another key, in mid-block. -/
theorem test_ctr_apply_in_mid_block :
    answer (live aes 0xa0a1a2a3a4a5a6a7a8a9aaabacadaeaf 5 (encode (.ctrApply 1 k2 (zeros 11)))) =
      some ([0x04, 0, 0, 0, 0, 0, 0, 11] ++ bytesBe 0x5fd1029b0b2141b3c8725c 11,
        [none, some ⟨0xa0a1a2a3a4a5a6a7a8a9aaabacadaeb0, 0⟩, none, none]) := by
  decide +kernel

/-- Rule R55: the result is `counter_iv` and then the offset. -/
theorem test_ctr_read :
    answer (live toy 0xa0a1a2a3a4a5a6a7a8a9aaabacadaeaf 15 (encode (.ctrRead 1))) =
      some ([0x06, 0, 0, 0, 0, 0, 0, 0x11] ++ bytesBe 0xa0a1a2a3a4a5a6a7a8a9aaabacadaeaf0f 17,
        [none, some ⟨0xa0a1a2a3a4a5a6a7a8a9aaabacadaeaf, 15⟩, none, none]) := by
  decide +kernel

/-- T12: no slot 4 of four. -/
theorem test_ctr_read_beyond_the_slots :
    reply (live toy 5 3 (encode (.ctrRead 4))) = some [0x06, 0x81, 0, 0, 0, 0, 0, 0] := by
  decide +kernel

theorem test_ctr_free :
    answer (live toy 5 3 (encode (.ctrFree 1))) =
      some ([0x05, 0, 0, 0, 0, 0, 0, 0], [none, none, none, none]) := by
  decide +kernel

/-- T12. -/
theorem test_ctr_free_of_an_invalid_slot :
    reply (live toy 5 3 (encode (.ctrFree 0))) = some [0x05, 0x81, 0, 0, 0, 0, 0, 0] := by
  decide +kernel

/-- F2, on every draw. -/
theorem test_factor_fifteen (d : FactorDraw) : factorOutcome none d 15 = .pair 3 5 := by
  cases d with
  | finds k =>
    have h : properDivisors 15 = [3, 5] := by decide
    rcases Nat.mod_two_eq_zero_or_one k with e | e <;> simp [factorOutcome, h, e, orderedPair]
  | exhausts => decide
  | cycles => decide

/-- F3. -/
theorem test_factor_of_four_bytes :
    reply (fresh (withUnit none) (encode (.factor (zeros 4)))) =
      some [0x09, 0x01, 0, 0, 0, 0, 0, 0] := by
  decide +kernel

end Vectors

/-! For every statement that has hypotheses: a state and operands that meet all of them together. -/

section Witnesses

theorem witness_DecodeEncodeRoundTrip :
    (Instr.igeEnc k1 v32 m16).wellFormed = true ∧ (Instr.factor []).wellFormed = true := by
  decide +kernel

theorem witness_DecodedBytesAreThePacketOfTheCommand :
    decode [0x05, 255, 0, 0, 0, 0, 0, 0, 7] = .command (.ctrFree 255) [7] := by decide

theorem witness_MaskAndMatchSelectTheRow :
    mnemonicOf 0x04 = some .ctrApply ∧ mbzClear .ctrApply ⟨0x04, 2, 0x20, 0, 0x25⟩ = true ∧
      headerWord ⟨0x04, 2, 0x20, 0, 0x25⟩ = 0x0402200000000025 := by decide

/-- Each of the three cases, at its bounds: `0x00`, `0x0A`, `0xFF`, and `0x09` without the unit. -/
theorem witness_ReservedOpcodesRaiseIllegalCommand :
    (atZero toy 0x00 0 0 0 0).atPacket (zeroPacket 0x00 0 0 0 0) [] ∧
    ((atZero toy 0x0A 9 1 1 2).atPacket (zeroPacket 0x0A 9 1 1 2) [] ∧ 0x0A ≤ (0x0A : Byte).toNat) ∧
    ((atZero toy 0xFF 0 0 0 0).atPacket (zeroPacket 0xFF 0 0 0 0) [] ∧ 0x0A ≤ (0xFF : Byte).toNat) ∧
    ((atZero toy 0x09 0 0 0 8).atPacket (zeroPacket 0x09 0 0 0 8) [] ∧
      (atZero toy 0x09 0 0 0 8).params.hasFactorizer = false) := by
  decide +kernel

theorem witness_ResponsePacketLayout : (zeros 300).length < 2 ^ 32 := by decide +kernel

theorem witness_StepRunsTheDecodedCommand :
    (fresh toy [0x06, 3, 0, 0, 0, 0, 0, 0, 1]).searching = false ∧
      decode (fresh toy [0x06, 3, 0, 0, 0, 0, 0, 0, 1]).command = .command (.ctrRead 3) [1] := by
  decide

theorem witness_StepExecutesTheEncodedCommand :
    (fresh toy (encode (.ctrNew 1 v16) ++ [9])).searching = false ∧
      (Instr.ctrNew 1 v16).wellFormed = true ∧
      (fresh toy (encode (.ctrNew 1 v16) ++ [9])).command = encode (.ctrNew 1 v16) ++ [9] := by
  decide +kernel

/-- A packet, one whose step goes on and one whose step never ends. -/
theorem witness_StepConsumesOnePacketAndAnswersOnce :
    (atZero toy 0x06 0 0 0 0).atPacket (zeroPacket 0x06 0 0 0 0) [] ∧
      (fresh (withUnit none) (encode (.factor (bytesBe 13 8)))).atPacket
        ⟨⟨0x09, 0, 0, 0, 8⟩, [], [], bytesBe 13 8⟩ [] ∧
      ∃ t, step (fresh (withUnit none) (encode (.factor (bytesBe 13 8)))) = .next t ∧
        t.searching = true :=
  ⟨by decide +kernel, by decide +kernel, _, rfl, rfl⟩

/-- Seven header bytes, and a whole header with the last payload byte missing. -/
theorem witness_IncompletePacketWaits :
    (fresh toy [0x06, 0, 0, 0, 0, 0, 0]).searching = false ∧
      (fresh toy [0x06, 0, 0, 0, 0, 0, 0]).command.length < 8 ∧
      (fresh toy (headerBytes ⟨0x01, 0, 32, 32, 16⟩ ++ zeros 79)).command =
        headerBytes ⟨0x01, 0, 32, 32, 16⟩ ++ zeros 79 ∧
      (zeros 79).length <
        (32 : Byte).toNat + (32 : Byte).toNat + (16 : BitVec 32).toNat := by
  decide +kernel

theorem witness_EngineThatSearchesForeverAnswersNothing :
    ({ fresh toy [] with searching := true } : State).searching = true := by decide

/-- One packet for each row of the table of priorities, the first by its opcode, the others with a cause
of a later row as well where there can be one. -/
theorem witness_ErrorsFollowThePriorityTable :
    ((atZero toy 0x0B 0 0 0 0).atPacket (zeroPacket 0x0B 0 0 0 0) [] ∧
      firstError ⟨0x0B, 0, 0, 0, 0⟩ (some none) false = some .illegalCommand) ∧
    ((atZero toy 0x01 1 32 32 15).atPacket (zeroPacket 0x01 1 32 32 15) [] ∧
      firstError ⟨0x01, 1, 32, 32, 15⟩ (some none) false = some .illegalCommand) ∧
    ((atZero toy 0x04 1 31 0 4).atPacket (zeroPacket 0x04 1 31 0 4) [] ∧
      firstError ⟨0x04, 1, 31, 0, 4⟩ (some none) false = some .badContext) ∧
    ((atZero toy 0x03 4 0 16 0).atPacket (zeroPacket 0x03 4 0 16 0) [] ∧
      firstError ⟨0x03, 4, 0, 16, 0⟩ none false = some .badContext) ∧
    ((atZero toy 0x03 0 0 15 0).atPacket (zeroPacket 0x03 0 0 15 0) [] ∧
      firstError ⟨0x03, 0, 0, 15, 0⟩ (some none) false = some .invalidLength) := by
  decide +kernel

/-- The second clause: a header with no cause of error. -/
theorem witness_ErrorsFollowThePriorityTable_none :
    (atZero toy 0x07 0 32 16 16).atPacket (zeroPacket 0x07 0 32 16 16) [] ∧
      firstError ⟨0x07, 0, 32, 16, 16⟩ (some none) false = none := by
  decide +kernel

theorem witness_ErrorResponseHasNoOtherEffect :
    ∃ t, step (atZero toy 0x06 0 0 0 0) = .next t ∧
      t.response = (atZero toy 0x06 0 0 0 0).response ++ responsePacket 0x06 .badContext [] ∧
      Status.badContext ≠ .ok :=
  ⟨_, rfl, rfl, by decide⟩

/-- Two engines over two ciphers with two different values in slot 1. -/
theorem witness_StatusDependsOnHeaderAndValidBitOnly :
    (live toy 5 3 (packetBytes (zeroPacket 0x04 1 32 0 7))).atPacket (zeroPacket 0x04 1 32 0 7) [] ∧
    (live aes 6 15 (packetBytes (zeroPacket 0x04 1 32 0 7) ++ [8])).atPacket
      (zeroPacket 0x04 1 32 0 7) [8] ∧
    (zeroPacket 0x04 1 32 0 7).header.op ≠ 0x09 ∧
    ((live toy 5 3 []).ctx[1]?).map Option.isSome = ((live aes 6 15 []).ctx[1]?).map Option.isSome := by
  decide +kernel

theorem witness_StepKeepsBuildParametersAndSentBytes :
    ∃ t, step (fresh toy (encode (.ctrNew 1 v16))) = .next t := ⟨_, rfl⟩

theorem witness_ResetLeavesEverySlotInvalidAndTheEngineIdle :
    decode [0x06, 3, 0, 0, 0, 0, 0, 0, 1] = .command (.ctrRead 3) [1] := by decide

/-- A slot file of each bounding length meets the invariant, one with a response sent and a command to
execute. -/
theorem witness_StepKeepsTheInvariant :
    (State.resetWith 256 toy).Inv ∧
      ({ State.resetWith 1 toy with
        response := responsePacket 0x06 .badContext []
        command := encode (.ctrNew 0 v16) } : State).Inv ∧
      ∃ t, step { State.resetWith 1 toy with
        response := responsePacket 0x06 .badContext []
        command := encode (.ctrNew 0 v16) } = .next t :=
  ⟨⟨by decide +kernel, by decide +kernel, [], by decide, rfl⟩,
    ⟨by decide, by decide, [⟨0x06, .badContext, []⟩], by decide, rfl⟩, _, rfl⟩

/-- A stream created, one advanced over the last offset, one destroyed: the slot before and after, with the
command the port decodes to. -/
theorem witness_SlotsAreCreatedAdvancedOrDestroyedOneAtATime :
    ((∃ t, step (fresh toy (encode (.ctrNew 1 v16))) = .next t ∧
        t.ctx[1]? = some (some ⟨blk v16 0, 0⟩)) ∧
      decode (fresh toy (encode (.ctrNew 1 v16))).command = .command (.ctrNew 1 v16) []) ∧
    ((∃ t, step (live toy 5 15 (encode (.ctrApply 1 k1 [7]))) = .next t ∧
        t.ctx[1]? = some (some ⟨6, 0⟩)) ∧
      decode (live toy 5 15 (encode (.ctrApply 1 k1 [7]))).command = .command (.ctrApply 1 k1 [7]) []) ∧
    (∃ t, step (live toy 5 15 (encode (.ctrFree 1))) = .next t ∧ t.ctx[1]? = some none) ∧
      decode (live toy 5 15 (encode (.ctrFree 1))).command = .command (.ctrFree 1) [] :=
  ⟨⟨⟨_, rfl, by decide +kernel⟩, by decide +kernel⟩, ⟨⟨_, rfl, by decide +kernel⟩, by decide +kernel⟩,
    ⟨_, rfl, by decide +kernel⟩, by decide +kernel⟩

/-- The last clause: an endless search, a command that names a live slot and writes none, and an illegal
packet. -/
theorem witness_SlotsAreCreatedAdvancedOrDestroyedOneAtATime_unchanged :
    ({ live toy 5 15 (encode (.ctrFree 1)) with searching := true } : State).searching = true ∧
    (decode (live toy 5 15 (encode (.ctrRead 1))).command = .command (.ctrRead 1) [] ∧
      (Instr.ctrRead 1).mnemonic ≠ .ctrNew ∧ (Instr.ctrRead 1).mnemonic ≠ .ctrApply ∧
      (Instr.ctrRead 1).mnemonic ≠ .ctrFree) ∧
    decode (live toy 5 15 [0x05, 1, 1, 0, 0, 0, 0, 0, 9]).command = .illegal 0x05 .nonzeroField [] := by
  decide

/-- Operands of two blocks with a 32-byte key and IV, for `IgeEncResult`, `IgeDecResult` and
`IgeRoundTrip`. -/
theorem witness_IgeEncResult :
    m32.length ≠ 0 ∧ m32.length % 16 = 0 ∧ k1.length = 32 ∧ v32.length = 32 := by decide +kernel

theorem witness_IgeDecResult :
    m16.length ≠ 0 ∧ m16.length % 16 = 0 ∧ k1.length = 32 ∧ v32.length = 32 := by decide +kernel

theorem witness_IgeRoundTrip :
    m32.length ≠ 0 ∧ m32.length % 16 = 0 ∧ k2.length = 32 ∧ v32.length = 32 ∧
      (fresh aes []).params.cipher = .aes256 := by decide +kernel

theorem witness_IgePrefixesAreIndependentOfLaterData :
    m32.length % 16 = 0 ∧ k1.length = 32 ∧ v32.length = 32 ∧ 0 < 1 ∧ 16 * 1 ≤ m32.length := by
  decide +kernel

theorem witness_IgeDecIsTheEncLoopWithDAndExchangedHalves : v32.length = 32 := by decide +kernel

theorem witness_IgeContinuesThroughTheIv :
    m32.length ≠ 0 ∧ m32.length % 16 = 0 ∧ m16.length ≠ 0 ∧ m16.length % 16 = 0 ∧ k1.length = 32 ∧
      v32.length = 32 := by decide +kernel

theorem witness_CbcEncResult :
    m32.length ≠ 0 ∧ m32.length % 16 = 0 ∧ k1.length = 32 ∧ v16.length = 16 := by decide +kernel

theorem witness_CbcDecResult :
    m16.length ≠ 0 ∧ m16.length % 16 = 0 ∧ k1.length = 32 ∧ v16.length = 16 := by decide +kernel

theorem witness_CbcRoundTrip :
    m32.length ≠ 0 ∧ m32.length % 16 = 0 ∧ k2.length = 32 ∧ v16.length = 16 ∧
      (fresh toy []).params.cipher = .toy16 := by decide +kernel

theorem witness_CbcContinuesThroughTheIv :
    m32.length ≠ 0 ∧ m32.length % 16 = 0 ∧ m16.length ≠ 0 ∧ m16.length % 16 = 0 ∧ k1.length = 32 ∧
      v16.length = 16 := by decide +kernel

theorem witness_CtrNewCreatesAStreamAtItsStart :
    (fresh toy []).ctx[(3 : Byte).toNat]? = some none ∧ v16.length = 16 := by decide +kernel

/-- A live slot whose counter and offset are both at their last values. -/
theorem witness_CtrApplyClosedForm :
    (live toy 0xffffffffffffffffffffffffffffffff 15 []).ctx[(1 : Byte).toNat]? =
        some (some ⟨0xffffffffffffffffffffffffffffffff, 15⟩) ∧
      k1.length = 32 ∧ m32.length ≠ 0 ∧ m32[31]? = some 0x5f := by decide +kernel

theorem witness_CtrSplitInvariance :
    (live toy 5 3 []).ctx[(1 : Byte).toNat]? = some (some ⟨5, 3⟩) ∧ k1.length = 32 ∧
      m16.length ≠ 0 ∧ m32.length ≠ 0 := by decide +kernel

/-- Two states that hold one CTR State, in two different slots. -/
theorem witness_CtrApplyUndoesItself :
    (live toy 5 3 []).ctx[(1 : Byte).toNat]? = some (some ⟨5, 3⟩) ∧
      ({ fresh toy [] with ctx := [some ⟨5, 3⟩] } : State).ctx[(0 : Byte).toNat]? =
        some (some ⟨5, 3⟩) ∧
      (live toy 5 3 []).params.cipher = ({ fresh toy [] with ctx := [some ⟨5, 3⟩] } : State).params.cipher ∧
      k1.length = 32 ∧ m16.length ≠ 0 := by decide +kernel

/-- Two states that differ in another slot, in what is sent, and in the factorizer. -/
theorem witness_StreamsAreIndependent :
    (live toy 5 3 []).ctx[(1 : Byte).toNat]? = some (some ⟨5, 3⟩) ∧
      ({ fresh (withUnit none) [7] with ctx := [some ⟨9, 9⟩, some ⟨5, 3⟩] } : State).ctx[(1 : Byte).toNat]? =
        some (some ⟨5, 3⟩) ∧
      (live toy 5 3 []).params.cipher = (withUnit none).cipher ∧ k1.length = 32 ∧ m16.length ≠ 0 := by
  decide +kernel

/-- A carry into byte 0, no carry at all, and the block that wraps. -/
theorem witness_Inc128IsBigEndianIncrementWithCarry :
    (∀ j : Fin 16, 0 < j → blockByte 0x00ffffffffffffffffffffffffffffff j = 0xff) ∧
    (∃ j : Fin 16, 14 < j ∧ blockByte 0x00fffffffffffffffffffffffffffffe j ≠ 0xff) ∧
    ∀ k : Fin 16, blockByte 0xffffffffffffffffffffffffffffffff k = 0xff := by
  decide +kernel

theorem witness_OffsetAdvancesModuloSixteen :
    (ctrTransform id ⟨5, 15⟩ [7]).2.byteOffset < (⟨5, 15⟩ : CtrState).byteOffset := by decide +kernel

theorem witness_CtrReadReturnsTheState :
    (live toy 5 15 []).ctx[(1 : Byte).toNat]? = some (some ⟨5, 15⟩) := by decide

theorem witness_CtrFreeDestroysTheStream :
    (live toy 5 0 []).ctx[(1 : Byte).toNat]? = some (some ⟨5, 0⟩) ∧ v16.length = 16 := by
  decide +kernel

theorem witness_FactorWithoutTheUnitIsIllegal : (fresh toy []).params.hasFactorizer = false := rfl

theorem witness_FactorFindsTheTwoPrimes :
    Nat.Prime 3 ∧ Nat.Prime 5 ∧ 3 < 5 ∧ 3 * 5 < 2 ^ 64 ∧
      (fresh (withUnit none) []).params.hasFactorizer = true ∧
      (fresh (withUnit none) []).params.factorBudget = none :=
  ⟨by norm_num, by norm_num, by norm_num, by norm_num, rfl, rfl⟩

theorem witness_FactorWithABudgetFindsTheTwoPrimesOrGivesUp :
    Nat.Prime 2 ∧ Nat.Prime 7 ∧ 2 < 7 ∧ 2 * 7 < 2 ^ 64 ∧
      (fresh (withUnit (some 0)) []).params.hasFactorizer = true ∧
      (fresh (withUnit (some 0)) []).params.factorBudget = some 0 :=
  ⟨by norm_num, by norm_num, by norm_num, by norm_num, rfl, rfl⟩

theorem witness_FactorOkMeetsTheContract :
    ∃ t, exec (.factor (bytesBe 15 8)) (fresh (withUnit none) []) = .next t ∧
      t.response = (fresh (withUnit none) []).response ++ responsePacket 0x09 .ok (factorResult 3 5) := by
  have h : factorOutcome none (Config.factorDraw 7 0 15) 15 = .pair 3 5 := test_factor_fifteen _
  have e : be (bytesBe 15 8) = 15 := by decide
  have l : factorLengthOk (bytesBe 15 8) = true := by decide
  refine ⟨((fresh (withUnit none) []).countDraw).respond 0x09 .ok (factorResult 3 5), ?_, rfl⟩
  simp [exec, execFactor, fresh, withUnit, State.resetWith, l, e, h, opByte]

/-- A prime and 1 and 0 have no factor pair; with a finite budget and with an infinite one. -/
theorem witness_FactorWithoutAPairNeverAnswersOk :
    (∀ n ∈ [13, 1, 0], (bytesBe n 8).length = 8 ∧
      ∀ g : Nat, 1 < g → g < be (bytesBe n 8) → ¬ g ∣ be (bytesBe n 8)) ∧
    ((fresh (withUnit (some 4)) []).params.hasFactorizer = true ∧
      (fresh (withUnit (some 4)) []).params.factorBudget.isSome = true) ∧
    (fresh (withUnit none) []).params.hasFactorizer = true ∧
      (fresh (withUnit none) []).params.factorBudget = none := by
  refine ⟨?_, ⟨rfl, rfl⟩, rfl, rfl⟩
  intro n hn
  refine ⟨rfl, ?_⟩
  have e : ∀ n ∈ [13, 1, 0], be (bytesBe n 8) = n := by decide
  rw [e n hn]
  have d : ∀ n ∈ [13, 1, 0], ∀ g < n, 1 < g → ¬ g ∣ n := by decide
  exact fun g h1 h2 => d n hn g h2 h1

theorem witness_FactorOfAPrimeSquareCanOnlyReturnTheRoot :
    Nat.Prime 5 ∧ 5 * 5 < 2 ^ 64 ∧ (fresh (withUnit none) []).params.hasFactorizer = true :=
  ⟨by norm_num, by norm_num, rfl⟩

theorem witness_NotFactorableNeedsAFiniteBudget :
    ∃ t, step (fresh (withUnit (some 4)) (encode (.factor (bytesBe 13 8)))) = .next t ∧
      t.response = (fresh (withUnit (some 4)) (encode (.factor (bytesBe 13 8)))).response ++
        responsePacket 0x09 .notFactorable [] :=
  ⟨_, rfl, rfl⟩

/-- Bytes 0 and 1, one for each condition on the inverse. -/
theorem witness_SboxIsTheAffineMapOfTheInverse : (0 : Byte) = 0 ∧ (1 : Byte) ≠ 0 := by decide

theorem witness_EnginesShareNothing :
    (⟨[fresh toy [], fresh aes [5]]⟩ : System).engines[1]? = some (fresh aes [5]) ∧ 0 ≠ 1 := by
  decide

end Witnesses

end Sys2Proof.Tests
end

