-- ==== Sys2Proof/Proofs/Reset.lean ====
section
/-! The state after reset, field by field, and its first step (rules R24, R56). -/

namespace Sys2Proof.Machine

/-- Rule R56: an engine that is not in an endless search runs the command at its port, with the
packet taken off. -/
theorem step_of_command {s : State} {i : Instr} {rest : Bytes}
    (hs : s.searching = false) (h : decode s.command = .command i rest) :
    step s = exec i (s.consumeTo rest) := by
  simp [step, hs, h]

namespace State

@[simp] theorem reset_command : reset.command = [] := rfl

@[simp] theorem reset_response : reset.response = [] := rfl

@[simp] theorem reset_searching : reset.searching = false := rfl

theorem eq_none_of_mem_reset_ctx {v : Option CtrState} (h : v ∈ reset.ctx) : v = none :=
  List.eq_of_mem_replicate h

/-- Nothing stands at the command port after reset, so what the host sends first is all there is. -/
theorem reset_hostSend_command (bs : Bytes) : (reset.hostSend bs).command = bs := by simp

/-- Only the command port tells a state before the host sends from one after. -/
@[simp] theorem consumeTo_hostSend (s : State) (bs rest : Bytes) :
    (s.hostSend bs).consumeTo rest = s.consumeTo rest := rfl

end State

/-- The first command after reset is decoded and run like any other. -/
theorem step_reset_hostSend {bs rest : Bytes} {i : Instr} (h : decode bs = .command i rest) :
    step (State.reset.hostSend bs) = exec i (State.reset.consumeTo rest) := by
  have hport : decode (State.reset.hostSend bs).command = .command i rest := by
    rw [State.reset_hostSend_command, h]
  have hidle : (State.reset.hostSend bs).searching = false := by simp
  rw [step_of_command hidle hport, State.consumeTo_hostSend]

/-- Settles O18, from the fields of the reset state and its first step. -/
theorem resetLeavesEverySlotInvalidAndTheEngineIdle :
    Obligations.ResetLeavesEverySlotInvalidAndTheEngineIdle :=
  ⟨fun _ => State.eq_none_of_mem_reset_ctx, State.reset_command, State.reset_response,
    State.reset_searching, fun _ _ _ => step_reset_hostSend⟩

end Sys2Proof.Machine
end

/-! A whole packet at the command port: how it is received, and the step of an opcode that names no
command of the engine (rules R46, R50, R56). -/

namespace Sys2Proof

open Sys2Proof.Machine

/-- A packet's bytes are received as that packet, whatever follows them. -/
theorem receivePacket_packetBytes {p : Packet} (hp : p.wellSized) (rest : Bytes) :
    receivePacket (packetBytes p ++ rest) = some (p, rest) := by
  obtain ⟨hkey, hiv, hdata⟩ := hp
  simpa [packetBytes, headerBytes] using
    receivePacket_of_fields p.header p.key p.iv p.data rest hkey hiv hdata

/-- Rule R50: `0x00` and `0x0A .. 0xFF` select no mnemonic, as none of the nine opcodes is among
them. -/
theorem mnemonicOf_eq_none_of_reserved {op : Byte} (h : op = 0x00 ∨ 0x0A ≤ op.toNat) :
    mnemonicOf op = none := by
  cases hm : mnemonicOf op with
  | none => rfl
  | some m =>
    rw [eq_opByte_of_mnemonicOf hm] at h
    exact absurd h (by cases m <;> decide)

/-- Rule R56 step 2: a packet whose opcode selects no mnemonic is refused before its other fields are
read. -/
theorem readPacket_of_mnemonicOf_none {p : Packet} (h : mnemonicOf p.header.op = none) :
    readPacket p = .error .reservedOpcode := by
  simp [readPacket, h]

/-- Rule R56 step 3: a packet whose opcode selects a mnemonic spells that command or has a nonzero
field. -/
theorem readPacket_of_mnemonicOf_some {p : Packet} {m : Mnemonic}
    (h : mnemonicOf p.header.op = some m) :
    readPacket p = .ok (commandOf m p) ∨ readPacket p = .error .nonzeroField := by
  cases hmbz : mbzClear m p.header
  · exact .inr (by simp [readPacket, h, hmbz])
  · exact .inl (by simp [readPacket, h, hmbz])

namespace Machine

section AtPacket

variable {s : State} {p : Packet} {rest : Bytes}

theorem receivePacket_of_atPacket (h : s.atPacket p rest) :
    receivePacket s.command = some (p, rest) := by
  obtain ⟨-, hsized, hcommand⟩ := h
  rw [hcommand, receivePacket_packetBytes hsized]

/-- The step at a packet that spells a command. -/
theorem step_of_atPacket_ok {i : Instr} (h : s.atPacket p rest) (hread : readPacket p = .ok i) :
    step s = exec i (s.consumeTo rest) :=
  step_of_command h.1 (decode_eq_command_iff.mpr ⟨p, receivePacket_of_atPacket h, hread⟩)

/-- The step at a packet that spells no command. -/
theorem step_of_atPacket_error {why : IllegalCause} (h : s.atPacket p rest)
    (hread : readPacket p = .error why) :
    step s = .next ((s.consumeTo rest).raise p.header.op .illegalCommand) :=
  step_of_illegal h.1 (decode_eq_illegal_iff.mpr ⟨p, receivePacket_of_atPacket h, hread, rfl⟩)

/-- Rule R50: an opcode without a mnemonic is illegal whatever the other fields. -/
theorem step_of_reservedOpcode (h : s.atPacket p rest)
    (hop : p.header.op = 0x00 ∨ 0x0A ≤ p.header.op.toNat) :
    step s = .next ((s.consumeTo rest).raise p.header.op .illegalCommand) :=
  step_of_atPacket_error h (readPacket_of_mnemonicOf_none (mnemonicOf_eq_none_of_reserved hop))

/-- Rules R50, R120: without the unit `FACTOR` answers `IllegalCommand` whatever its data. -/
theorem exec_factor_of_no_unit (data : Bytes) (hunit : s.params.hasFactorizer = false) :
    exec (.factor data) s = .next (s.raise (opByte .factor) .illegalCommand) := by
  simp [exec, execFactor, hunit]

/-- Rule R50: without the unit opcode `0x09` is illegal whatever the other fields. The decoder refuses
a nonzero field and the command refuses the rest, both with the same answer. -/
theorem step_of_factorOpcode_of_no_unit (h : s.atPacket p rest) (hop : p.header.op = 0x09)
    (hunit : s.params.hasFactorizer = false) :
    step s = .next ((s.consumeTo rest).raise p.header.op .illegalCommand) := by
  have hm : mnemonicOf p.header.op = some .factor := by rw [hop]; rfl
  obtain hok | hmbz := readPacket_of_mnemonicOf_some hm
  · rw [step_of_atPacket_ok h hok, eq_opByte_of_mnemonicOf hm]
    exact exec_factor_of_no_unit p.data hunit
  · exact step_of_atPacket_error h hmbz

end AtPacket

/-- Settles O5: a reserved opcode is refused by the decoder, and `0x09` without the unit by the decoder
or by the command. -/
theorem reservedOpcodesRaiseIllegalCommand : Obligations.ReservedOpcodesRaiseIllegalCommand := by
  rintro s p rest hs (hzero | hhigh | ⟨hfactor, hunit⟩)
  · exact step_of_reservedOpcode hs (.inl hzero)
  · exact step_of_reservedOpcode hs (.inr hhigh)
  · exact step_of_factorOpcode_of_no_unit hs hfactor hunit

end Machine

end Sys2Proof

/-! The block cipher primitive: `D(k, ·)` undoes `E(k, ·)` for AES-256, round by round, and for TOY16,
byte by byte; as there are finitely many blocks, both are then permutations (rules R71, R134, R135). -/

namespace Sys2Proof.Machine

/-- The last of `n + 1` rounds, taken off (rule R134). -/
theorem encryptRounds_succ (w : List AesWord) (n r : Nat) (s : AesBlock) :
    encryptRounds w (n + 1) r s =
      addRoundKey (mixColumns (shiftRows (subBytes (encryptRounds w n r s)))) (roundKey w (r + n)) := by
  induction n generalizing r s with
  | zero => rfl
  | succ n ih => rw [encryptRounds, ih, encryptRounds, Nat.add_right_comm r 1 n, Nat.add_assoc r n 1]

/-- Rule R135: round `n + 1` of the inverse cipher undoes `MixColumns` and `AddRoundKey` of round
`n + 1` of the cipher, and the `SubBytes` and `ShiftRows` of the round after. -/
theorem decryptRounds_succ_undoes (w : List AesWord) (n : Nat) (s : AesBlock) :
    decryptRounds w (n + 1)
        (shiftRows (subBytes (addRoundKey (mixColumns s) (roundKey w (n + 1))))) =
      decryptRounds w n s := by
  rw [decryptRounds, invShiftRows_shiftRows, invSubBytes_subBytes, addRoundKey_addRoundKey,
    invMixColumns_mixColumns]

/-- The rounds of the inverse cipher undo the rounds of the cipher, each direction seen behind a
`SubBytes` and a `ShiftRows`. -/
theorem decryptRounds_encryptRounds (w : List AesWord) (n : Nat) (s : AesBlock) :
    decryptRounds w n (shiftRows (subBytes (encryptRounds w n 1 s))) = shiftRows (subBytes s) := by
  induction n with
  | zero => rfl
  | succ n ih => rw [encryptRounds_succ, Nat.add_comm 1 n, decryptRounds_succ_undoes, ih]

/-- Rule R71 for AES-256. -/
theorem aesDecrypt_aesEncrypt (k : Key) (b : Block) : aesDecrypt k (aesEncrypt k b) = b := by
  simp only [aesDecrypt, aesEncrypt, aesOfBlock_blockOfAes, addRoundKey_addRoundKey,
    decryptRounds_encryptRounds, invShiftRows_shiftRows, invSubBytes_subBytes, blockOfAes_aesOfBlock]

/-- Byte `i` of what TOY16 enciphers to. -/
theorem getD_bytesOfBlock_toyEncrypt (k : Key) (b : Block) {i : Nat} (hi : i < 16) :
    (bytesOfBlock (toyEncrypt k b)).getD i 0 =
      (bytesOfBlock b).getD ((i + 1) % 16) 0 + toyTerm k i := by
  rw [toyEncrypt, bytesOfBlock_blockOfBytes _ (by simp)]
  simp [hi]

/-- A block is built from its 16 bytes. -/
theorem blockOfBytes_map_getD_bytesOfBlock (b : Block) :
    blockOfBytes ((List.range 16).map fun j => (bytesOfBlock b).getD j 0) = b := by
  have hbytes : (List.range 16).map (fun j => (bytesOfBlock b).getD j 0) = bytesOfBlock b :=
    List.ext_getElem (by simp) (by simp +contextual)
  rw [hbytes, blockOfBytes_bytesOfBlock]

/-- Rule R71 for TOY16: `D_toy` takes off at `j - 1` what `E_toy` added there to byte `j`. -/
theorem toyDecrypt_toyEncrypt (k : Key) (b : Block) : toyDecrypt k (toyEncrypt k b) = b := by
  have hbyte : ∀ j ∈ List.range 16,
      (bytesOfBlock (toyEncrypt k b)).getD ((j + 15) % 16) 0 - toyTerm k ((j + 15) % 16) =
        (bytesOfBlock b).getD j 0 := by
    intro j hj
    have hlt : j < 16 := List.mem_range.mp hj
    have hback : ((j + 15) % 16 + 1) % 16 = j := by omega
    rw [getD_bytesOfBlock_toyEncrypt k b (Nat.mod_lt _ (by decide)), hback, BitVec.add_sub_cancel]
  rw [toyDecrypt, List.map_congr_left hbyte, blockOfBytes_map_getD_bytesOfBlock]

/-- Rule R71: `D(k, ·)` undoes `E(k, ·)`, for every cipher the engine may be built over. -/
theorem cipherUnit_dec_leftInverse (c : Cipher) (k : Key) :
    Function.LeftInverse (cipherUnit c .dec k) (cipherUnit c .enc k) := by
  intro b
  cases c with
  | aes256 => exact aesDecrypt_aesEncrypt k b
  | toy16 => exact toyDecrypt_toyEncrypt k b
  | other n => exact (Config.cipherPerm n k).symm_apply_apply b

/-- An injective map of the finitely many blocks is a permutation. -/
theorem cipherUnit_enc_bijective (c : Cipher) (k : Key) :
    Function.Bijective (cipherUnit c .enc k) :=
  Finite.injective_iff_bijective.mp (cipherUnit_dec_leftInverse c k).injective

/-- Rule R71: `E(k, ·)` undoes `D(k, ·)`. -/
theorem cipherUnit_dec_rightInverse (c : Cipher) (k : Key) :
    Function.RightInverse (cipherUnit c .dec k) (cipherUnit c .enc k) :=
  (cipherUnit_dec_leftInverse c k).rightInverse_of_surjective (cipherUnit_enc_bijective c k).surjective

/-- Settles O50: `D` is a left inverse of `E` cipher by cipher, and on finitely many blocks a left
inverse makes `E` a permutation and is its right inverse too. -/
theorem primitiveIsAPermutationAndItsInverse : Obligations.PrimitiveIsAPermutationAndItsInverse :=
  fun c k => ⟨cipherUnit_enc_bijective c k, fun b =>
    ⟨cipherUnit_dec_leftInverse c k b, cipherUnit_dec_rightInverse c k b⟩⟩

end Sys2Proof.Machine

/-! The CTR stream: `CTR_APPLY` as its transform on the slot, the transform in pieces, backwards and as
the offset sees it (rules R93, R94, R98, R99). -/

namespace Sys2Proof.Machine

/-- What a command wrote to its slot is what the next command on that slot finds. -/
theorem State.slot?_respond_setSlot_same {s : State} {ctx op : Byte} {v w : Option CtrState}
    {st : Status} {result : Bytes} (h : s.slot? ctx = some v) :
    ((s.setSlot ctx w).respond op st result).slot? ctx = some w := by
  rw [slot?_respond, slot?_setSlot_same s ctx w (lt_of_slot?_eq_some h)]

/-- Rules R92, R93: on a live slot, with lengths it accepts, `CTR_APPLY` answers with what the transform
of the slot's CTR State gives and leaves the slot at the state the transform ends in. -/
theorem exec_ctrApply_of_live {s : State} {ctx : Byte} {key data : Bytes} {c : CtrState}
    (hslot : s.slot? ctx = some (some c)) (hkey : key.length = 32) (hdata : data.length ≠ 0) :
    exec (.ctrApply ctx key data) s =
      .next ((s.setSlot ctx (some (ctrTransform (cipherE s.params.cipher key) c data).2)).respond
        (opByte .ctrApply) .ok (ctrTransform (cipherE s.params.cipher key) c data).1) := by
  have hlengths : ctrApplyLengthsOk key data = true :=
    (ctrApplyLengthsOk_iff key data).mpr ⟨hdata, hkey⟩
  simp [exec, execCtrApply, hslot, hlengths]

section Transform

variable (E : Block → Block) (c : CtrState)

/-- A stream over two sequences is the stream over the first and then, from the CTR State that leaves,
over the second. -/
theorem ctrTransform_append (a b : Bytes) :
    ctrTransform E c (a ++ b) =
      ((ctrTransform E c a).1 ++ (ctrTransform E (ctrTransform E c a).2 b).1,
        (ctrTransform E (ctrTransform E c a).2 b).2) := by
  induction a generalizing c with
  | nil => simp
  | cons d ds ih => simp only [List.cons_append, ctrTransform_cons, ih]

/-- Rule R98 for any number of pieces. -/
theorem ctrPieces_eq_ctrTransform_flatten (pieces : List Bytes) :
    ctrPieces E c pieces = ctrTransform E c pieces.flatten := by
  induction pieces generalizing c with
  | nil => simp [ctrPieces]
  | cons piece more ih => simp only [ctrPieces, ih, List.flatten_cons, ctrTransform_append]

/-- Rule R99: the CTR States passed through do not depend on the data, so the same keystream byte meets
each byte twice and cancels. -/
theorem ctrTransform_ctrTransform (data : Bytes) :
    ctrTransform E c (ctrTransform E c data).1 = (data, (ctrTransform E c data).2) := by
  induction data generalizing c with
  | nil => rfl
  | cons d ds ih =>
    simp only [ctrTransform_cons, ih, BitVec.xor_assoc, BitVec.xor_self, BitVec.xor_zero]

/-- Rule R94: the offset counts the bytes modulo 16. -/
theorem ctrTransform_byteOffset_val (data : Bytes) :
    (ctrTransform E c data).2.byteOffset.val = (c.byteOffset.val + data.length) % 16 := by
  induction data generalizing c with
  | nil => exact (Nat.mod_eq_of_lt c.byteOffset.isLt).symm
  | cons d ds ih =>
    simp only [ctrTransform_cons, ih, Fin.val_add, List.length_cons, Fin.val_one]
    omega

/-- Rule R94: one more byte advances the offset by one. -/
theorem ctrTransform_append_singleton_byteOffset_val (data : Bytes) (d : Byte) :
    (ctrTransform E c (data ++ [d])).2.byteOffset.val =
      ((ctrTransform E c data).2.byteOffset.val + 1) % 16 := by
  rw [ctrTransform_append]
  exact ctrTransform_byteOffset_val E (ctrTransform E c data).2 [d]

/-- Rule R94: the offset gets smaller only by wrapping. -/
theorem byteOffset_wraps_of_lt (d : Byte)
    (hlt : (ctrTransform E c [d]).2.byteOffset < c.byteOffset) :
    c.byteOffset = 15 ∧ (ctrTransform E c [d]).2.byteOffset = 0 := by
  have hafter := ctrTransform_byteOffset_val E c [d]
  rw [List.length_singleton] at hafter
  have hbefore := c.byteOffset.isLt
  have hval := Fin.lt_def.mp hlt
  exact ⟨Fin.ext (show c.byteOffset.val = 15 by omega),
    Fin.ext (show (ctrTransform E c [d]).2.byteOffset.val = 0 by omega)⟩

end Transform

/-- Settles O35, as the transform of `a ++ b` is that of `a` and then of `b`, and the slot is written by
the last of them. -/
theorem ctrSplitInvariance : Obligations.CtrSplitInvariance := by
  refine ⟨?_, ctrPieces_eq_ctrTransform_flatten⟩
  intro s ctx key a b c hslot hkey ha hb
  have hab : (a ++ b).length ≠ 0 := by rw [List.length_append]; omega
  refine ⟨_, _, _, _, _, exec_ctrApply_of_live hslot hkey ha,
    exec_ctrApply_of_live (State.slot?_respond_setSlot_same hslot) hkey hb,
    exec_ctrApply_of_live hslot hkey hab, rfl, rfl, ?_, ?_⟩
  · simp [ctrTransform_append, opByte]
  · simp [ctrTransform_append]

/-- Settles O36, by the transform being its own inverse from one CTR State. -/
theorem ctrApplyUndoesItself : Obligations.CtrApplyUndoesItself := by
  intro s s' ctx ctx' key data c hslot hslot' hcipher hkey hdata
  have hout : (ctrTransform (cipherE s.params.cipher key) c data).1.length ≠ 0 := by
    rwa [length_ctrTransform]
  refine ⟨_, _, _, exec_ctrApply_of_live hslot hkey hdata, rfl,
    exec_ctrApply_of_live hslot' hkey hout, ?_⟩
  simp [← hcipher, ctrTransform_ctrTransform, opByte]

/-- Settles O39, by the offset that the transform ends at. -/
theorem offsetAdvancesModuloSixteen : Obligations.OffsetAdvancesModuloSixteen :=
  ⟨ctrTransform_byteOffset_val, ctrTransform_append_singleton_byteOffset_val, byteOffset_wraps_of_lt⟩

end Sys2Proof.Machine

/-! `inc128` as an increment of the big-endian integer, and the carry from byte to byte (rule R95). -/

namespace Sys2Proof.Machine

theorem be_bytesOfBlock (c : Block) : be (bytesOfBlock c) = c.toNat := by
  rw [bytesOfBlock, be_bytesBe]
  exact Nat.mod_eq_of_lt c.isLt

theorem toNat_inc128 (c : Block) : (inc128 c).toNat = (c.toNat + 1) % 2 ^ 128 :=
  BitVec.toNat_add c 1

/-- Byte `k` of a block is digit `15 - k` of its integer in base 256. -/
theorem toNat_blockByte (c : Block) (k : Fin 16) :
    (blockByte c k).toNat = c.toNat / 256 ^ (15 - k.val) % 256 := by
  rw [blockByte, BitVec.extractLsb'_toNat, Nat.shiftRight_eq_div_pow, pow_mul]
  rfl

/-- Adding 1 carries out of the low `n` digits exactly if they are all 255. -/
theorem pow_dvd_succ_iff_digits (v n : Nat) :
    256 ^ n ∣ v + 1 ↔ ∀ i < n, v / 256 ^ i % 256 = 255 := by
  induction n with
  | zero => simp
  | succ n ih =>
    rw [Nat.forall_lt_succ_right, ← ih]
    have hpos : 0 < 256 ^ n := by positivity
    constructor
    · intro hdvd
      have hlow : 256 ^ n ∣ v + 1 := (pow_dvd_pow 256 n.le_succ).trans hdvd
      refine ⟨hlow, ?_⟩
      have hnext : 256 ∣ (v + 1) / 256 ^ n := Nat.dvd_div_of_mul_dvd (by rwa [← pow_succ])
      rw [Nat.succ_div_of_dvd hlow] at hnext
      omega
    · rintro ⟨hlow, hdigit⟩
      have hnext : 256 ∣ (v + 1) / 256 ^ n := by rw [Nat.succ_div_of_dvd hlow]; omega
      rw [pow_succ]
      exact Nat.mul_dvd_of_dvd_div hlow hnext

/-- The bytes below byte `k` of a block are all `ff` exactly if adding 1 carries into byte `k`. -/
theorem pow_dvd_toNat_succ_iff_bytes (c : Block) (k : Fin 16) :
    256 ^ (15 - k.val) ∣ c.toNat + 1 ↔ ∀ j : Fin 16, k < j → blockByte c j = 0xff := by
  have hbyte (j : Fin 16) :
      blockByte c j = 0xff ↔ c.toNat / 256 ^ (15 - j.val) % 256 = 255 := by
    rw [← toNat_blockByte]
    exact BitVec.toNat_inj.symm
  rw [pow_dvd_succ_iff_digits]
  simp only [hbyte]
  constructor
  · intro h j hj
    exact h (15 - j.val) (by omega)
  · intro h i hi
    have hdigit := h ⟨15 - i, by omega⟩ (Fin.lt_def.mpr (by dsimp only; omega))
    rwa [show 15 - (15 - i) = i by omega] at hdigit

/-- Byte `k` of the incremented block, before it is known whether a carry comes in. -/
theorem toNat_blockByte_inc128 (c : Block) (k : Fin 16) :
    (blockByte (inc128 c) k).toNat = (c.toNat + 1) / 256 ^ (15 - k.val) % 256 := by
  have hk : (2 : Nat) ^ 128 = 256 ^ (15 - k.val) * (256 * 256 ^ k.val) := by
    rw [← pow_succ', ← pow_add, show 15 - k.val + (k.val + 1) = 16 by omega]
    norm_num
  rw [toNat_blockByte, toNat_inc128, hk, Nat.mod_mul_right_div_self, Nat.mod_mul_right_mod]

/-- Rule R95: a carry that comes in adds 1 to the byte. -/
theorem blockByte_inc128_of_carry {c : Block} {k : Fin 16}
    (hff : ∀ j : Fin 16, k < j → blockByte c j = 0xff) :
    blockByte (inc128 c) k = blockByte c k + 1 := by
  have hcarry := (pow_dvd_toNat_succ_iff_bytes c k).mpr hff
  apply BitVec.eq_of_toNat_eq
  rw [toNat_blockByte_inc128, BitVec.toNat_add, toNat_blockByte, Nat.succ_div_of_dvd hcarry,
    Nat.mod_add_mod]
  rfl

/-- Rule R95: without a carry the byte stays. -/
theorem blockByte_inc128_of_no_carry {c : Block} {k : Fin 16}
    (hne : ∃ j : Fin 16, k < j ∧ blockByte c j ≠ 0xff) :
    blockByte (inc128 c) k = blockByte c k := by
  obtain ⟨j, hj, hbyte⟩ := hne
  have hcarry : ¬ 256 ^ (15 - k.val) ∣ c.toNat + 1 :=
    fun hdvd => hbyte ((pow_dvd_toNat_succ_iff_bytes c k).mp hdvd j hj)
  apply BitVec.eq_of_toNat_eq
  rw [toNat_blockByte_inc128, toNat_blockByte, Nat.succ_div_of_not_dvd hcarry]

/-- Rule R95: sixteen bytes `ff` go to zero, each by the carry that comes in. -/
theorem blockByte_inc128_of_all_ff {c : Block} (hff : ∀ k : Fin 16, blockByte c k = 0xff)
    (k : Fin 16) : blockByte (inc128 c) k = 0 := by
  rw [blockByte_inc128_of_carry fun j _ => hff j, hff k]
  rfl

/-- Rule R95: the bytes of the incremented block are those of the incremented integer. -/
theorem bytesOfBlock_inc128 (c : Block) :
    bytesOfBlock (inc128 c) = bytesBe ((be (bytesOfBlock c) + 1) % 2 ^ 128) 16 := by
  rw [be_bytesOfBlock, bytesOfBlock, toNat_inc128]

/-- Settles O38, by the digits of the block's integer in base 256. -/
theorem inc128IsBigEndianIncrementWithCarry : Obligations.Inc128IsBigEndianIncrementWithCarry :=
  ⟨bytesOfBlock_inc128, fun _ _ => ⟨blockByte_inc128_of_carry, blockByte_inc128_of_no_carry⟩,
    fun _ => blockByte_inc128_of_all_ff⟩

end Sys2Proof.Machine

/-! The errors of a command: the tables of R141 to R143 against the decoder and the guards of the
commands, and what a step at a whole packet answers (rules R144, R145, R146). -/

namespace Sys2Proof

open Sys2Proof.Machine

/-- The slot that `ctx` names is there, and its `valid` bit is `valid` (rule R13). -/
def Machine.State.validIs (s : State) (ctx : Byte) (valid : Bool) : Bool :=
  (s.slot? ctx).map Option.isSome == some valid

namespace Instr

/-- The unit that the command needs is present (rules R50, R120). -/
def unitOk : Instr → State → Bool
  | factor _, s => s.params.hasFactorizer
  | _, _ => true

/-- The slot that the command names has the `valid` bit the command needs (rule R143). -/
def slotOk : Instr → State → Bool
  | ctrNew ctx _, s => s.validIs ctx false
  | ctrApply ctx _ _, s => s.validIs ctx true
  | ctrFree ctx, s => s.validIs ctx true
  | ctrRead ctx, s => s.validIs ctx true
  | _, _ => true

/-- The payloads have the lengths that the command needs (rule R141). -/
def lengthsOk : Instr → Bool
  | igeEnc key iv data => igeLengthsOk key iv data
  | igeDec key iv data => igeLengthsOk key iv data
  | ctrNew _ iv => ctrNewLengthOk iv
  | ctrApply _ key data => ctrApplyLengthsOk key data
  | ctrFree _ => true
  | ctrRead _ => true
  | cbcEnc key iv data => cbcLengthsOk key iv data
  | cbcDec key iv data => cbcLengthsOk key iv data
  | factor data => factorLengthOk data

end Instr

namespace Machine

section Guards

variable {i : Instr} {s : State}

/-- A slot with `valid = 0` is there and holds nothing. -/
theorem State.slot?_eq_of_validIs_false {ctx : Byte} (h : s.validIs ctx false = true) :
    s.slot? ctx = some none := by
  simpa [validIs] using h

/-- A slot with `valid = 1` holds a CTR State. -/
theorem State.exists_slot?_eq_of_validIs_true {ctx : Byte} (h : s.validIs ctx true = true) :
    ∃ c, s.slot? ctx = some (some c) := by
  simpa [validIs, Option.isSome_iff_exists] using h

/-- Where there is no slot with `valid = 0`, there is none at all or one that holds a CTR State. -/
theorem State.slot?_of_not_validIs_false {ctx : Byte} (h : s.validIs ctx false = false) :
    s.slot? ctx = none ∨ ∃ c, s.slot? ctx = some (some c) := by
  match hslot : s.slot? ctx with
  | none => exact .inl rfl
  | some none => simp [validIs, hslot] at h
  | some (some c) => exact .inr ⟨c, rfl⟩

/-- Where there is no slot with `valid = 1`, there is none at all or one that holds nothing. -/
theorem State.slot?_of_not_validIs_true {ctx : Byte} (h : s.validIs ctx true = false) :
    s.slot? ctx = none ∨ s.slot? ctx = some none := by
  match hslot : s.slot? ctx with
  | none => exact .inl rfl
  | some none => exact .inr rfl
  | some (some c) => simp [validIs, hslot] at h

/-- Only `FACTOR` needs a unit, and without it answers `IllegalCommand`. -/
theorem exec_of_unitOk_false (hunit : i.unitOk s = false) :
    exec i s = .next (s.raise (opByte i.mnemonic) .illegalCommand) := by
  cases i with
  | factor data => exact exec_factor_of_no_unit data hunit
  | _ => exact absurd hunit (by simp [Instr.unitOk])

/-- Rule R143: a command on a slot of the wrong validity, or on none, answers `BadContext` before any
length is looked at. -/
theorem exec_of_slotOk_false (hslot : i.slotOk s = false) :
    exec i s = .next (s.raise (opByte i.mnemonic) .badContext) := by
  cases i with
  | ctrNew ctx iv =>
    obtain h | ⟨c, h⟩ := State.slot?_of_not_validIs_false hslot <;>
      simp [exec, execCtrNew, h, Instr.mnemonic]
  | ctrApply ctx key data =>
    obtain h | h := State.slot?_of_not_validIs_true hslot <;>
      simp [exec, execCtrApply, h, Instr.mnemonic]
  | ctrFree ctx =>
    obtain h | h := State.slot?_of_not_validIs_true hslot <;>
      simp [exec, execCtrFree, h, Instr.mnemonic]
  | ctrRead ctx =>
    obtain h | h := State.slot?_of_not_validIs_true hslot <;>
      simp [exec, execCtrRead, h, Instr.mnemonic]
  | _ => exact absurd hslot (by simp [Instr.slotOk])

/-- Rule R141: a command with its unit and a slot it can work on, but a wrong length, answers
`InvalidLength`. -/
theorem exec_of_lengthsOk_false (hunit : i.unitOk s = true) (hslot : i.slotOk s = true)
    (hlen : i.lengthsOk = false) :
    exec i s = .next (s.raise (opByte i.mnemonic) .invalidLength) := by
  cases i with
  | igeEnc key iv data => exact if_neg (Bool.eq_false_iff.mp hlen)
  | igeDec key iv data => exact if_neg (Bool.eq_false_iff.mp hlen)
  | cbcEnc key iv data => exact if_neg (Bool.eq_false_iff.mp hlen)
  | cbcDec key iv data => exact if_neg (Bool.eq_false_iff.mp hlen)
  | ctrNew ctx iv =>
    have hfree := State.slot?_eq_of_validIs_false hslot
    have hiv : ctrNewLengthOk iv = false := hlen
    simp [exec, execCtrNew, hfree, hiv, Instr.mnemonic]
  | ctrApply ctx key data =>
    obtain ⟨c, hlive⟩ := State.exists_slot?_eq_of_validIs_true hslot
    have hkd : ctrApplyLengthsOk key data = false := hlen
    simp [exec, execCtrApply, hlive, hkd, Instr.mnemonic]
  | ctrFree ctx => exact absurd hlen (by simp [Instr.lengthsOk])
  | ctrRead ctx => exact absurd hlen (by simp [Instr.lengthsOk])
  | factor data =>
    have hhas : s.params.hasFactorizer = true := hunit
    have hdata : factorLengthOk data = false := hlen
    simp [exec, execFactor, hhas, hdata, Instr.mnemonic]

/-- What a command comes to that has no cause of an error in R141 to R143: `OK`, but that a `FACTOR`
may come to the end of its budget or search forever (rules R124, R125). -/
def Accepted (op : Byte) (s t : State) : Prop :=
  t.command = s.command ∧
    ((∃ r : Bytes, t.response = s.response ++ responsePacket op .ok r) ∨
      (op = 0x09 ∧
        (t = s.countDraw.raise 0x09 .notFactorable ∨ t = s.countDraw.searchForever)))

/-- An `OK` response after an update that leaves both ports alone. -/
theorem accepted_respond_ok {u : State} (op : Byte) (r : Bytes) (hcommand : u.command = s.command)
    (hresponse : u.response = s.response) : Accepted op s (u.respond op .ok r) :=
  ⟨hcommand, .inl ⟨r, by rw [State.respond_response, hresponse]⟩⟩

/-- `FACTOR` with the unit and 8 bytes ends as its search does. -/
theorem exec_factor_accepted {data : Bytes} (hhas : s.params.hasFactorizer = true)
    (hlen : factorLengthOk data = true) :
    ∃ t, exec (.factor data) s = .next t ∧ Accepted 0x09 s t := by
  simp only [exec, execFactor, hhas, hlen, if_true]
  split
  · exact ⟨_, rfl, accepted_respond_ok 0x09 _ rfl rfl⟩
  · exact ⟨_, rfl, rfl, .inr ⟨rfl, .inl rfl⟩⟩
  · exact ⟨_, rfl, rfl, .inr ⟨rfl, .inr rfl⟩⟩

/-- A command that passes its three guards is accepted. -/
theorem exec_accepted (hunit : i.unitOk s = true) (hslot : i.slotOk s = true)
    (hlen : i.lengthsOk = true) :
    ∃ t, exec i s = .next t ∧ Accepted (opByte i.mnemonic) s t := by
  cases i with
  | igeEnc key iv data => exact ⟨_, if_pos hlen, accepted_respond_ok _ _ rfl rfl⟩
  | igeDec key iv data => exact ⟨_, if_pos hlen, accepted_respond_ok _ _ rfl rfl⟩
  | cbcEnc key iv data => exact ⟨_, if_pos hlen, accepted_respond_ok _ _ rfl rfl⟩
  | cbcDec key iv data => exact ⟨_, if_pos hlen, accepted_respond_ok _ _ rfl rfl⟩
  | ctrNew ctx iv =>
    have hfree := State.slot?_eq_of_validIs_false hslot
    have hiv : ctrNewLengthOk iv = true := hlen
    simp only [exec, execCtrNew, hfree, hiv, if_true]
    exact ⟨_, rfl, accepted_respond_ok _ _ rfl rfl⟩
  | ctrApply ctx key data =>
    obtain ⟨c, hlive⟩ := State.exists_slot?_eq_of_validIs_true hslot
    obtain ⟨hdata, hkey⟩ := (ctrApplyLengthsOk_iff key data).mp hlen
    exact ⟨_, exec_ctrApply_of_live hlive hkey hdata, accepted_respond_ok _ _ rfl rfl⟩
  | ctrFree ctx =>
    obtain ⟨c, hlive⟩ := State.exists_slot?_eq_of_validIs_true hslot
    simp only [exec, execCtrFree, hlive]
    exact ⟨_, rfl, accepted_respond_ok _ _ rfl rfl⟩
  | ctrRead ctx =>
    obtain ⟨c, hlive⟩ := State.exists_slot?_eq_of_validIs_true hslot
    simp only [exec, execCtrRead, hlive]
    exact ⟨_, rfl, accepted_respond_ok _ _ rfl rfl⟩
  | factor data => exact exec_factor_accepted hunit hlen

end Guards

end Machine

section Tables

variable {p : Packet} {m : Mnemonic} (hop : p.header.op = opByte m)

@[simp] theorem mnemonic_commandOf (m : Mnemonic) (p : Packet) : (commandOf m p).mnemonic = m := by
  cases m <;> rfl

/-- Rule R50: an opcode that selects no mnemonic is none of `0x01` to `0x09`. -/
theorem illegalOpcode_of_mnemonicOf_none {h : Header} (hnone : mnemonicOf h.op = none)
    (hasFactorizer : Bool) : illegalOpcode h hasFactorizer = true := by
  have hreserved : h.op.toNat = 0 ∨ 10 ≤ h.op.toNat := by
    unfold mnemonicOf at hnone
    split at hnone
    case h_10 =>
      simp only [imp_false] at *
      omega
    all_goals cases hnone
  obtain hzero | hhigh := hreserved
  · simp [illegalOpcode, show h.op = 0 from BitVec.eq_of_toNat_eq hzero]
  · simp [illegalOpcode, hhigh]

include hop

/-- Rule R142: among the nine opcodes only that of `FACTOR` can be illegal, for want of its unit. -/
theorem illegalOpcode_eq_not_unitOk (s : State) :
    illegalOpcode p.header s.params.hasFactorizer = !(commandOf m p).unitOk s := by
  cases m <;> simp [illegalOpcode, hop, opByte, commandOf, Instr.unitOk]

/-- Rule R142: the table of surplus fields is the decoder's check, read field by field. -/
theorem surplusField_eq_not_mbzClear : surplusField p.header = !mbzClear m p.header := by
  cases m <;> simp [surplusField, hop, opByte, mbzClear, bne]

/-- Rule R143: the table of context errors is what the commands ask of their slot. -/
theorem badContextCause_eq_not_slotOk (s : State) :
    badContextCause p.header (s.slot? p.header.ctx) = !(commandOf m p).slotOk s := by
  match h : s.slot? p.header.ctx with
  | none =>
    cases m <;>
      simp [badContextCause, hop, opByte, commandOf, Instr.slotOk, State.validIs, h]
  | some none =>
    cases m <;>
      simp [badContextCause, hop, opByte, commandOf, Instr.slotOk, State.validIs, h]
  | some (some c) =>
    cases m <;>
      simp [badContextCause, hop, opByte, commandOf, Instr.slotOk, State.validIs, h]

/-- Rule R141: in a packet the payloads are as long as declared, so the table of lengths is what the
commands ask of their payloads. -/
theorem badLengthCause_eq_not_lengthsOk (hp : p.wellSized) :
    badLengthCause p.header = !(commandOf m p).lengthsOk := by
  obtain ⟨hkey, hiv, hdata⟩ := hp
  rw [eq_comm, Bool.not_eq_eq_eq_not, Bool.eq_iff_iff]
  cases m <;>
    simp [badLengthCause, hop, opByte, commandOf, Instr.lengthsOk, igeLengthsOk_iff,
      cbcLengthsOk_iff, ctrNewLengthOk_iff, ctrApplyLengthsOk_iff, factorLengthOk_iff, hkey, hiv,
      hdata, BitVec.toNat_eq, and_assoc]

/-- Rule R145: the tables of errors, for the packet of a row of the opcode map, are the decoder's check
of the fields and the guards of the row's command, in the order of priority. -/
theorem firstError_eq_guards (hp : p.wellSized) (s : State) :
    firstError p.header (s.slot? p.header.ctx) s.params.hasFactorizer =
      if (commandOf m p).unitOk s = false then some .illegalCommand
      else if mbzClear m p.header = false then some .illegalCommand
      else if (commandOf m p).slotOk s = false then some .badContext
      else if (commandOf m p).lengthsOk = false then some .invalidLength
      else none := by
  simp only [firstError, illegalOpcode_eq_not_unitOk hop, surplusField_eq_not_mbzClear hop,
    badContextCause_eq_not_slotOk hop, badLengthCause_eq_not_lengthsOk hop hp, Bool.not_eq_true']

end Tables

/-- Rule R56 step 3: with its must-be-zero fields clear a packet spells the command of its opcode. -/
theorem readPacket_of_mbzClear {p : Packet} {m : Mnemonic} (hm : mnemonicOf p.header.op = some m)
    (hmbz : mbzClear m p.header = true) : readPacket p = .ok (commandOf m p) := by
  simp [readPacket, hm, hmbz]

/-- Rule R49: with one of them not zero it spells none. -/
theorem readPacket_of_not_mbzClear {p : Packet} {m : Mnemonic}
    (hm : mnemonicOf p.header.op = some m) (hmbz : mbzClear m p.header = false) :
    readPacket p = .error .nonzeroField := by
  simp [readPacket, hm, hmbz]

/-- A packet's opcode is that of the command it spells. -/
theorem op_eq_opByte_mnemonic_commandOf {p : Packet} {m : Mnemonic}
    (hm : mnemonicOf p.header.op = some m) : p.header.op = opByte (commandOf m p).mnemonic := by
  rw [mnemonic_commandOf, eq_opByte_of_mnemonicOf hm]

/-- The validity of the slot is all that the causes of `BadContext` look at. -/
theorem badContextCause_congr (h : Header) {slot slot' : Option (Option CtrState)}
    (hvalid : slot.map Option.isSome = slot'.map Option.isSome) :
    badContextCause h slot = badContextCause h slot' := by
  match slot, slot' with
  | none, none => rfl
  | some none, some none => rfl
  | some (some _), some (some _) => rfl
  | none, some _ => simp at hvalid
  | some _, none => simp at hvalid
  | some none, some (some _) => simp at hvalid
  | some (some _), some none => simp at hvalid

/-- Rule R146: the first cause of an error of a mode-engine command depends on the slot through its
`valid` bit, and not on the unit of `FACTOR`. -/
theorem firstError_congr {h : Header} {slot slot' : Option (Option CtrState)} (hop : h.op ≠ 0x09)
    (hvalid : slot.map Option.isSome = slot'.map Option.isSome) (unit unit' : Bool) :
    firstError h slot unit = firstError h slot' unit' := by
  have hopcode : illegalOpcode h unit = illegalOpcode h unit' := by
    simp only [illegalOpcode, beq_false_of_ne hop, Bool.false_and]
  simp only [firstError, hopcode, badContextCause_congr h hvalid]

namespace Machine

/-- An engine that does not wait or search has received a whole packet. -/
theorem step_eq_self_or_atPacket (s : State) :
    step s = .next s ∨ ∃ p rest, s.atPacket p rest := by
  cases hs : s.searching with
  | true => exact .inl (step_of_searching hs)
  | false =>
    match hrecv : receivePacket s.command with
    | none => exact .inl (step_of_incomplete (decode_eq_incomplete_iff.mpr hrecv))
    | some (p, rest) =>
      obtain ⟨hkey, hiv, hdata, hbytes⟩ := receivePacket_eq_some hrecv
      exact .inr ⟨p, rest, hs, ⟨hkey, hiv, hdata⟩, by simp [hbytes, packetBytes, headerBytes]⟩

section AtPacket

variable {s : State} {p : Packet} {rest : Bytes} (hat : s.atPacket p rest)
include hat

/-- Rules R144, R145: a packet with a cause of an error is answered with the first one, and that is
all. -/
theorem step_of_firstError_some {st : Status}
    (herr : firstError p.header (s.slot? p.header.ctx) s.params.hasFactorizer = some st) :
    step s = .next ((s.consumeTo rest).raise p.header.op st) := by
  cases hm : mnemonicOf p.header.op with
  | none =>
    rw [firstError, if_pos (illegalOpcode_of_mnemonicOf_none hm _)] at herr
    cases herr
    exact step_of_atPacket_error hat (readPacket_of_mnemonicOf_none hm)
  | some m =>
    have hop := op_eq_opByte_mnemonic_commandOf hm
    have hsized : p.wellSized := hat.2.1
    rw [← State.slot?_consumeTo s rest, ← State.consumeTo_params s rest,
      firstError_eq_guards (eq_opByte_of_mnemonicOf hm) hsized] at herr
    cases hmbz : mbzClear m p.header with
    | false =>
      simp only [hmbz, if_true, ite_self, Option.some.injEq] at herr
      rw [← herr]
      exact step_of_atPacket_error hat (readPacket_of_not_mbzClear hm hmbz)
    | true =>
      rw [step_of_atPacket_ok hat (readPacket_of_mbzClear hm hmbz), hop]
      simp only [hmbz, Bool.true_eq_false, if_false] at herr
      split_ifs at herr with hunit hslot hlen
      all_goals cases herr
      · exact exec_of_unitOk_false hunit
      · exact exec_of_slotOk_false hslot
      · exact exec_of_lengthsOk_false (by simpa using hunit) (by simpa using hslot) hlen

/-- Rule R145: a packet without a cause of an error is accepted. -/
theorem step_of_firstError_none
    (hnone : firstError p.header (s.slot? p.header.ctx) s.params.hasFactorizer = none) :
    ∃ t, step s = .next t ∧ Accepted p.header.op (s.consumeTo rest) t := by
  cases hm : mnemonicOf p.header.op with
  | none => simp [firstError, illegalOpcode_of_mnemonicOf_none hm] at hnone
  | some m =>
    have hop := op_eq_opByte_mnemonic_commandOf hm
    have hsized : p.wellSized := hat.2.1
    rw [← State.slot?_consumeTo s rest, ← State.consumeTo_params s rest,
      firstError_eq_guards (eq_opByte_of_mnemonicOf hm) hsized] at hnone
    split_ifs at hnone with hunit hmbz hslot hlen
    rw [Bool.not_eq_false] at hunit hmbz hslot hlen
    rw [step_of_atPacket_ok hat (readPacket_of_mbzClear hm hmbz), hop]
    exact exec_accepted hunit hslot hlen

end AtPacket

/-- Settles O14: the tables of errors are the guards of decoder and commands. -/
theorem errorsFollowThePriorityTable : Obligations.ErrorsFollowThePriorityTable := by
  intro s p rest hat
  refine ⟨fun st herr => step_of_firstError_some hat herr, fun hnone => ?_⟩
  obtain ⟨t, hstep, hcommand, hok | ⟨hop, rfl | rfl⟩⟩ := step_of_firstError_none hat hnone
  · exact ⟨t, hstep, hcommand, .inl hok⟩
  · exact ⟨_, hstep, hcommand, .inr ⟨hop, .inl rfl⟩⟩
  · exact ⟨_, hstep, hcommand, .inr ⟨hop, .inr ⟨rfl, rfl⟩⟩⟩

/-- A response is never empty. -/
theorem append_responsePacket_ne (sent : Bytes) (op : Byte) (st : Status) (r : Bytes) :
    sent ≠ sent ++ responsePacket op st r := by
  simp [responsePacket]

/-- Settles O15: a step that answers is one at a packet; with a cause of an error it raises the status,
and without one only `NotFactorable` is not `OK`. -/
theorem errorResponseHasNoOtherEffect : Obligations.ErrorResponseHasNoOtherEffect := by
  intro s t op st r hstep hresponse hst
  obtain hidle | ⟨p, rest, hat⟩ := step_eq_self_or_atPacket s
  · cases hidle.symm.trans hstep
    exact absurd hresponse (append_responsePacket_ne _ _ _ _)
  · cases herr : firstError p.header (s.slot? p.header.ctx) s.params.hasFactorizer with
    | some st' =>
      cases (step_of_firstError_some hat herr).symm.trans hstep
      obtain ⟨-, -, hr⟩ := responsePacket_inj (List.append_cancel_left hresponse)
      exact ⟨hr.symm, rfl⟩
    | none =>
      obtain ⟨t', hstep', -, ⟨r', hok⟩ | ⟨-, rfl | rfl⟩⟩ := step_of_firstError_none hat herr
      · cases hstep'.symm.trans hstep
        obtain ⟨-, hst', -⟩ :=
          responsePacket_inj (List.append_cancel_left (hok.symm.trans hresponse))
        exact absurd hst'.symm hst
      · cases hstep'.symm.trans hstep
        obtain ⟨-, -, hr⟩ := responsePacket_inj (List.append_cancel_left hresponse)
        exact ⟨hr.symm, rfl⟩
      · cases hstep'.symm.trans hstep
        exact absurd hresponse (append_responsePacket_ne _ _ _ _)

/-- The status that answers a mode-engine command is its first cause of an error, or else `OK`. -/
theorem step_status_of_op_ne_factor {s : State} {p : Packet} {rest : Bytes}
    (hat : s.atPacket p rest) (hop : p.header.op ≠ 0x09) :
    ∃ t r, step s = .next t ∧ t.response = s.response ++ responsePacket p.header.op
      ((firstError p.header (s.slot? p.header.ctx) s.params.hasFactorizer).getD .ok) r := by
  cases herr : firstError p.header (s.slot? p.header.ctx) s.params.hasFactorizer with
  | some st => exact ⟨_, [], step_of_firstError_some hat herr, rfl⟩
  | none =>
    obtain ⟨t, hstep, -, ⟨r, hok⟩ | ⟨hfactor, -⟩⟩ := step_of_firstError_none hat herr
    · exact ⟨t, r, hstep, hok⟩
    · exact absurd hfactor hop

/-- Settles O16: the status is that of the first cause of an error, which both engines have alike. -/
theorem statusDependsOnHeaderAndValidBitOnly :
    Obligations.StatusDependsOnHeaderAndValidBitOnly := by
  intro s s' p p' rest rest' hat hat' hheader hop hvalid
  obtain ⟨t, r, hstep, hresponse⟩ := step_status_of_op_ne_factor hat hop
  obtain ⟨t', r', hstep', hresponse'⟩ := step_status_of_op_ne_factor hat' (hheader ▸ hop)
  have herr := firstError_congr hop hvalid s.params.hasFactorizer s'.params.hasFactorizer
  rw [← hheader, State.slot?, ← herr] at hresponse'
  exact ⟨t, t', _, r, r', hstep, hstep', hresponse, hresponse'⟩

end Machine

end Sys2Proof

/-! A command and its packet: the packet of a well-formed command is received and read as that command,
and only its packet is (rules R45 to R49, R58). -/

namespace Sys2Proof

open Sys2Proof.Machine

namespace Laws.PacketShape

/-- Rules R48, R49, R56: the packet of any command reads as that command. -/
theorem readPacket_packet (i : Instr) : readPacket (packet i) = .ok i := by
  cases i with
  | igeEnc key iv data => exact igeEnc key iv data
  | igeDec key iv data => exact igeDec key iv data
  | ctrNew ctx iv => exact ctrNew ctx iv
  | ctrApply ctx key data => exact ctrApply ctx key data
  | ctrFree ctx => exact ctrFree ctx
  | ctrRead ctx => exact ctrRead ctx
  | cbcEnc key iv data => exact cbcEnc key iv data
  | cbcDec key iv data => exact cbcDec key iv data
  | factor data => exact factor data

end Laws.PacketShape

open Laws.PacketShape (header packet readPacket_packet)

theorem Instr.wellFormed_iff (i : Instr) :
    i.wellFormed = true ↔
      i.key.length < 2 ^ 8 ∧ i.iv.length < 2 ^ 8 ∧ i.data.length < 2 ^ 32 := by
  simp only [Instr.wellFormed, Bool.and_eq_true, decide_eq_true_eq, and_assoc]

/-- Rule R45: the payloads of a well-formed command have the lengths that its header declares. -/
theorem wellSized_packet {i : Instr} (hi : i.wellFormed = true) : (packet i).wellSized := by
  obtain ⟨hkey, hiv, hdata⟩ := i.wellFormed_iff.mp hi
  have toNat_length {n : Nat} (w : Nat) (h : n < 2 ^ w) : n = (BitVec.ofNat w n).toNat := by
    rw [BitVec.toNat_ofNat, Nat.mod_eq_of_lt h]
  exact ⟨toNat_length 8 hkey, toNat_length 8 hiv, toNat_length 32 hdata⟩

/-- Rule R58: what the assembler writes for a well-formed command is its packet, field by field. -/
theorem encode_eq_packetBytes {i : Instr} (hi : i.wellFormed = true) :
    encode i = packetBytes (packet i) := by
  obtain ⟨-, -, hdata⟩ := wellSized_packet hi
  have hdlen : (header i).dlen.toNat = i.data.length := hdata.symm
  rw [packetBytes, headerBytes, packet, hdlen, encode, assemble]
  simp [header]

/-- Settles O1: a command's packet is received whole and reads as the command. -/
theorem decodeEncodeRoundTrip : Obligations.DecodeEncodeRoundTrip := by
  intro i rest hi
  rw [encode_eq_packetBytes hi, decode_eq_command_iff]
  exact ⟨packet i, receivePacket_packetBytes (wellSized_packet hi) rest, readPacket_packet i⟩

/-- Rule R56: a packet that spells a command is one of the command's row with its must-be-zero fields
clear. -/
theorem exists_commandOf_of_readPacket {p : Packet} {i : Instr} (h : readPacket p = .ok i) :
    ∃ m, mnemonicOf p.header.op = some m ∧ mbzClear m p.header = true ∧ i = commandOf m p := by
  cases hm : mnemonicOf p.header.op with
  | none => simp [readPacket_of_mnemonicOf_none hm] at h
  | some m =>
    cases hmbz : mbzClear m p.header with
    | false => simp [readPacket_of_not_mbzClear hm hmbz] at h
    | true =>
      rw [readPacket_of_mbzClear hm hmbz] at h
      exact ⟨m, rfl, hmbz, (Except.ok.inj h).symm⟩

section CommandOf

variable {m : Mnemonic} {p : Packet} (hmbz : mbzClear m p.header = true)
include hmbz

/-- Rule R48: a context handle that the command does not take is zero in the packet. -/
theorem ctxField_commandOf : (commandOf m p).ctxField = p.header.ctx := by
  cases m <;> simp_all [commandOf, Instr.ctxField, mbzClear]

/-- Rule R48: a payload that the command does not take is empty in the packet. -/
theorem payloads_commandOf (hp : p.wellSized) :
    (commandOf m p).key = p.key ∧ (commandOf m p).iv = p.iv ∧ (commandOf m p).data = p.data := by
  obtain ⟨hkey, hiv, hdata⟩ := hp
  cases m <;> simp_all [commandOf, Instr.key, Instr.iv, Instr.data, mbzClear]

end CommandOf

/-- Rules R45, R48: a packet that spells a command is that command's packet. -/
theorem packet_of_readPacket {p : Packet} {i : Instr} (hp : p.wellSized)
    (h : readPacket p = .ok i) : packet i = p := by
  obtain ⟨m, hm, hmbz, rfl⟩ := exists_commandOf_of_readPacket h
  obtain ⟨hkey, hiv, hdata⟩ := payloads_commandOf hmbz hp
  obtain ⟨hklen, hivlen, hdlen⟩ := hp
  have hheader : header (commandOf m p) = p.header := by
    simp [header, hkey, hiv, hdata, hklen, hivlen, hdlen, ctxField_commandOf hmbz,
      ← eq_opByte_of_mnemonicOf hm]
  rw [packet, hheader, hkey, hiv, hdata]

/-- Rule R45: what a whole packet spells is well formed, as the header fields are wide enough for the
lengths in them. -/
theorem wellFormed_of_readPacket {p : Packet} {i : Instr} (hp : p.wellSized)
    (h : readPacket p = .ok i) : i.wellFormed = true := by
  have hpacket := packet_of_readPacket hp h
  obtain ⟨hkey, hiv, hdata⟩ := hp
  subst hpacket
  exact i.wellFormed_iff.mpr ⟨hkey ▸ (header i).klen.isLt, hiv ▸ (header i).ivlen.isLt,
    hdata ▸ (header i).dlen.isLt⟩

/-- Bytes from which a packet is received are that packet, with lengths as declared, and the rest. -/
theorem wellSized_of_receivePacket {bs rest : Bytes} {p : Packet}
    (h : receivePacket bs = some (p, rest)) : p.wellSized ∧ bs = packetBytes p ++ rest := by
  obtain ⟨hkey, hiv, hdata, hbytes⟩ := receivePacket_eq_some h
  exact ⟨⟨hkey, hiv, hdata⟩, by simp [hbytes, packetBytes, headerBytes]⟩

/-- What decodes to a command is a whole packet that spells it. -/
theorem exists_packet_of_decode {bs rest : Bytes} {i : Instr} (h : decode bs = .command i rest) :
    ∃ p : Packet, p.wellSized ∧ bs = packetBytes p ++ rest ∧ readPacket p = .ok i := by
  obtain ⟨p, hrecv, hread⟩ := decode_eq_command_iff.mp h
  obtain ⟨hp, hbytes⟩ := wellSized_of_receivePacket hrecv
  exact ⟨p, hp, hbytes, hread⟩

/-- Rule R45: the decoder answers well-formed commands only. -/
theorem wellFormed_of_decode {bs rest : Bytes} {i : Instr} (h : decode bs = .command i rest) :
    i.wellFormed = true := by
  obtain ⟨p, hp, -, hread⟩ := exists_packet_of_decode h
  exact wellFormed_of_readPacket hp hread

/-- Settles O2: a packet that spells a command is the command's packet. -/
theorem decodedBytesAreThePacketOfTheCommand : Obligations.DecodedBytesAreThePacketOfTheCommand := by
  intro bs rest i h
  obtain ⟨p, hp, rfl, hread⟩ := exists_packet_of_decode h
  have hi := wellFormed_of_readPacket hp hread
  exact ⟨hi, by rw [encode_eq_packetBytes hi, packet_of_readPacket hp hread]⟩

/-- Settles O4, each packet by running the decoder on it. -/
theorem wordsOfTheSpecDecode : Obligations.WordsOfTheSpecDecode := by
  refine ⟨?_, ?_, ?_, ?_, ?_, ?_, ?_⟩ <;> decide

/-! The opcode table's masks and matches (rule R51): a mask is the header word of a header whose fields
are all ones where the row fixes them. -/

/-- Two headers taken together bit by bit, field by field. -/
def fieldsAnd (h k : Header) : Header :=
  ⟨h.op &&& k.op, h.ctx &&& k.ctx, h.klen &&& k.klen, h.ivlen &&& k.ivlen, h.dlen &&& k.dlen⟩

/-- The header word is the fields end to end, so bits are taken together field by field. -/
theorem headerWord_and (h k : Header) :
    headerWord h &&& headerWord k = headerWord (fieldsAnd h k) := by
  have hop : (h.op ++ h.ctx) &&& (k.op ++ k.ctx) = (h.op &&& k.op) ++ (h.ctx &&& k.ctx) :=
    BitVec.and_append
  have hklen := BitVec.and_append (x₁ := h.op ++ h.ctx) (x₂ := k.op ++ k.ctx) (y₁ := h.klen)
    (y₂ := k.klen)
  have hivlen := BitVec.and_append (x₁ := h.op ++ h.ctx ++ h.klen) (x₂ := k.op ++ k.ctx ++ k.klen)
    (y₁ := h.ivlen) (y₂ := k.ivlen)
  rw [hop] at hklen
  rw [hklen] at hivlen
  exact BitVec.and_append.trans (congrArg (· ++ (h.dlen &&& k.dlen)) hivlen)

/-- Bit sequences joined end to end are equal where both parts are. -/
theorem append_bits_inj {v w : Nat} {a a' : BitVec v} {b b' : BitVec w} (h : a ++ b = a' ++ b') :
    a = a' ∧ b = b' := by
  have hleft := congrArg (BitVec.extractLsb' w v) h
  have hright := congrArg (BitVec.extractLsb' 0 w) h
  rw [BitVec.extractLsb'_append_eq_left, BitVec.extractLsb'_append_eq_left] at hleft
  rw [BitVec.extractLsb'_append_eq_right, BitVec.extractLsb'_append_eq_right] at hright
  exact ⟨hleft, hright⟩

/-- A header word says which header it is. -/
theorem headerWord_inj {h k : Header} (hw : headerWord h = headerWord k) : h = k := by
  obtain ⟨hw, hdlen⟩ := append_bits_inj hw
  obtain ⟨hw, hivlen⟩ := append_bits_inj hw
  obtain ⟨hw, hklen⟩ := append_bits_inj hw
  obtain ⟨hop, hctx⟩ := append_bits_inj hw
  cases h
  cases k
  simp_all

/-- The fields that a row of the opcode table fixes, all ones: the opcode and the must-be-zero fields
(rules R48, R51). -/
def fixedFields : Mnemonic → Header
  | .igeEnc => ⟨BitVec.allOnes _, BitVec.allOnes _, 0, 0, 0⟩
  | .igeDec => ⟨BitVec.allOnes _, BitVec.allOnes _, 0, 0, 0⟩
  | .ctrNew => ⟨BitVec.allOnes _, 0, BitVec.allOnes _, 0, BitVec.allOnes _⟩
  | .ctrApply => ⟨BitVec.allOnes _, 0, 0, BitVec.allOnes _, 0⟩
  | .ctrFree =>
    ⟨BitVec.allOnes _, 0, BitVec.allOnes _, BitVec.allOnes _, BitVec.allOnes _⟩
  | .ctrRead =>
    ⟨BitVec.allOnes _, 0, BitVec.allOnes _, BitVec.allOnes _, BitVec.allOnes _⟩
  | .cbcEnc => ⟨BitVec.allOnes _, BitVec.allOnes _, 0, 0, 0⟩
  | .cbcDec => ⟨BitVec.allOnes _, BitVec.allOnes _, 0, 0, 0⟩
  | .factor =>
    ⟨BitVec.allOnes _, BitVec.allOnes _, BitVec.allOnes _, BitVec.allOnes _, 0⟩

theorem rowMask_eq_headerWord (m : Mnemonic) : rowMask m = headerWord (fixedFields m) := by
  cases m <;> decide

theorem rowMatch_eq_headerWord (m : Mnemonic) : rowMatch m = headerWord ⟨opByte m, 0, 0, 0, 0⟩ := by
  cases m <;> decide

theorem mnemonicOf_eq_some_iff {op : Byte} {m : Mnemonic} :
    mnemonicOf op = some m ↔ op = opByte m :=
  ⟨eq_opByte_of_mnemonicOf, fun h => h ▸ mnemonicOf_opByte m⟩

/-- Settles O3: mask and match compare field by field, and where a field is not fixed both are zero. -/
theorem maskAndMatchSelectTheRow : Obligations.MaskAndMatchSelectTheRow := by
  intro h m
  have hfields : headerWord h &&& rowMask m = rowMatch m ↔
      fieldsAnd h (fixedFields m) = ⟨opByte m, 0, 0, 0, 0⟩ := by
    rw [rowMask_eq_headerWord, rowMatch_eq_headerWord, headerWord_and]
    exact ⟨headerWord_inj, congrArg headerWord⟩
  rw [hfields, mnemonicOf_eq_some_iff, fieldsAnd, Header.mk.injEq]
  cases m <;> simp [-BitVec.reduceAllOnes, fixedFields, mbzClear, and_assoc]

namespace Machine

/-- Settles O6: `RLEN` is the four bytes of a length that fits in them. -/
theorem responsePacketLayout : Obligations.ResponsePacketLayout := by
  intro s op st result hlen
  obtain ⟨b4, b5, b6, b7, hbytes, hvalue⟩ := exists_bytesBe_four result.length
  exact ⟨b4, b5, b6, b7, by simp [State.respond, responsePacket, hbytes],
    hvalue.trans (Nat.mod_eq_of_lt hlen)⟩

/-- Settles O7, by the table of status bytes. -/
theorem statusCodes : Obligations.StatusCodes := ⟨rfl, rfl, rfl, rfl, rfl⟩

end Machine

end Sys2Proof

/-! A CTR stream after `n` bytes in closed form, and what the four commands make of a free or a live
slot (rules R91, R96, R101, R102, R103). -/

namespace Sys2Proof.Machine

/-- The CTR State `n` bytes after `c` (rule R96). -/
def CtrState.advance (c : CtrState) (n : Nat) : CtrState :=
  ⟨inc128^[(c.byteOffset.val + n) / 16] c.counterIv, Fin.ofNat 16 (c.byteOffset.val + n)⟩

namespace CtrState

@[simp] theorem advance_zero (c : CtrState) : c.advance 0 = c := by
  obtain ⟨counter, offset⟩ := c
  simp [advance, Nat.div_eq_of_lt offset.isLt]

theorem advance_advance (c : CtrState) (m n : Nat) : (c.advance m).advance n = c.advance (m + n) := by
  simp only [advance, Fin.val_ofNat, ← Function.iterate_add_apply]
  rw [show ((c.byteOffset.val + m) % 16 + n) / 16 + (c.byteOffset.val + m) / 16 =
    (c.byteOffset.val + (m + n)) / 16 by omega]
  congr 1
  apply Fin.ext
  simp only [Fin.val_ofNat]
  omega

/-- Rule R93: one byte advances the offset, and the counter where the offset wraps. -/
theorem advance_one (c : CtrState) :
    c.advance 1 =
      ⟨if c.byteOffset + 1 = 0 then inc128 c.counterIv else c.counterIv, c.byteOffset + 1⟩ := by
  have hoffset : Fin.ofNat 16 (c.byteOffset.val + 1) = c.byteOffset + 1 := by
    apply Fin.ext
    simp [Fin.val_add]
  have hcounter : inc128^[(c.byteOffset.val + 1) / 16] c.counterIv =
      if c.byteOffset + 1 = 0 then inc128 c.counterIv else c.counterIv := by
    have hlt := c.byteOffset.isLt
    split_ifs with hwrap
    · have hval := congrArg Fin.val hwrap
      simp only [Fin.val_add, Fin.val_one, Fin.val_zero] at hval
      rw [show (c.byteOffset.val + 1) / 16 = 1 by omega, Function.iterate_one]
    · have hval := Fin.val_ne_of_ne hwrap
      simp only [Fin.val_add, Fin.val_one, Fin.val_zero] at hval
      rw [show (c.byteOffset.val + 1) / 16 = 0 by omega, Function.iterate_zero_apply]
  rw [advance, hoffset, hcounter]

end CtrState

section Stream

variable (E : Block → Block) (c : CtrState)

/-- One byte of a stream, and then the stream from the CTR State one byte on. -/
theorem ctrTransform_cons_advance (d : Byte) (ds : Bytes) :
    ctrTransform E c (d :: ds) =
      ((d ^^^ blockByte (E c.counterIv) c.byteOffset) :: (ctrTransform E (c.advance 1) ds).1,
        (ctrTransform E (c.advance 1) ds).2) := by
  rw [ctrTransform_cons, CtrState.advance_one]

/-- Rule R96: where a stream of `n` bytes ends. -/
theorem ctrTransform_snd (data : Bytes) : (ctrTransform E c data).2 = c.advance data.length := by
  induction data generalizing c with
  | nil => simp
  | cons d ds ih =>
    rw [ctrTransform_cons_advance, ih, CtrState.advance_advance, List.length_cons, Nat.add_comm]

/-- Rule R96: byte `j` of a stream meets the keystream byte of the CTR State `j` bytes on. -/
theorem getElem?_ctrTransform_fst {data : Bytes} {j : Nat} {d : Byte} (hd : data[j]? = some d) :
    (ctrTransform E c data).1[j]? =
      some (d ^^^ blockByte (E (c.advance j).counterIv) (c.advance j).byteOffset) := by
  induction data generalizing c j with
  | nil => simp at hd
  | cons d' ds ih =>
    rw [ctrTransform_cons_advance]
    cases j with
    | zero =>
      rw [List.getElem?_cons_zero, Option.some.injEq] at hd
      simp [hd]
    | succ j =>
      rw [List.getElem?_cons_succ] at hd ⊢
      rw [ih _ hd, CtrState.advance_advance, Nat.add_comm 1 j]

end Stream

/-- Settles O34, by the closed forms of the stream's bytes and of its end. -/
theorem ctrApplyClosedForm : Obligations.CtrApplyClosedForm := by
  intro s ctx key data c hslot hkey hdata
  refine ⟨_, ?_, length_ctrTransform _ _ _, fun j d hd => getElem?_ctrTransform_fst _ c hd⟩
  rw [exec_ctrApply_of_live hslot hkey hdata, ctrTransform_snd]
  rfl

/-- Settles O37: the transform sees the slot's CTR State, the key and the data only, and one slot is
written. -/
theorem streamsAreIndependent : Obligations.StreamsAreIndependent := by
  intro s s' ctx key data c hslot hslot' hcipher hkey hdata
  have hthere := State.lt_of_slot?_eq_some hslot
  have hthere' := State.lt_of_slot?_eq_some hslot'
  refine ⟨_, _, _, exec_ctrApply_of_live hslot hkey hdata, exec_ctrApply_of_live hslot' hkey hdata,
    rfl, ?_, ?_, fun j hj => ⟨?_, ?_⟩⟩
  · simp [hcipher, opByte]
  · simp [hcipher, hthere, hthere']
  · simp [hj.symm]
  · simp [hj.symm]

section Slots

variable {s : State} {ctx : Byte}

/-- Rule R91: on a free slot, with a 16-byte IV, `CTR_NEW` starts a stream. -/
theorem exec_ctrNew_of_free {iv : Bytes} (hslot : s.slot? ctx = some none) (hiv : iv.length = 16) :
    exec (.ctrNew ctx iv) s =
      .next ((s.setSlot ctx (some ⟨ivBlock iv, 0⟩)).respond (opByte .ctrNew) .ok []) := by
  simp [exec, execCtrNew, hslot, (ctrNewLengthOk_iff iv).mpr hiv]

/-- Rule R102: on a live slot `CTR_FREE` takes the stream away. -/
theorem exec_ctrFree_of_live {c : CtrState} (hslot : s.slot? ctx = some (some c)) :
    exec (.ctrFree ctx) s = .next ((s.setSlot ctx none).respond (opByte .ctrFree) .ok []) := by
  simp [exec, execCtrFree, hslot]

/-- Rule R101: on a live slot `CTR_READ` answers with the CTR State. -/
theorem exec_ctrRead_of_live {c : CtrState} (hslot : s.slot? ctx = some (some c)) :
    exec (.ctrRead ctx) s = .next (s.respond (opByte .ctrRead) .ok (ctrReadout c)) := by
  simp [exec, execCtrRead, hslot]

end Slots

/-- Settles O33, by what `CTR_NEW` does on a free slot. -/
theorem ctrNewCreatesAStreamAtItsStart : Obligations.CtrNewCreatesAStreamAtItsStart :=
  fun _ _ iv hslot hiv =>
    ⟨⟨ivBlock iv, 0⟩, bytesOfBlock_ivBlock iv hiv, rfl, exec_ctrNew_of_free hslot hiv⟩

/-- Settles O40: the offset is below 16, so its byte holds it. -/
theorem ctrReadReturnsTheState : Obligations.CtrReadReturnsTheState := by
  intro s ctx c hslot
  have hlt := c.byteOffset.isLt
  have hoff : (BitVec.ofNat 8 c.byteOffset.val).toNat = c.byteOffset.val := by
    rw [BitVec.toNat_ofNat]
    omega
  exact ⟨_, hoff, by omega, exec_ctrRead_of_live hslot⟩

/-- Settles O41: the freed slot is there and holds nothing, which is what `CTR_NEW` asks for and what
the other three commands refuse. -/
theorem ctrFreeDestroysTheStream : Obligations.CtrFreeDestroysTheStream := by
  intro s ctx c hslot
  have hfree : ((s.setSlot ctx none).respond (opByte .ctrFree) .ok []).slot? ctx = some none :=
    State.slot?_respond_setSlot_same hslot
  have hinvalid : ((s.setSlot ctx none).respond (opByte .ctrFree) .ok []).validIs ctx true = false := by
    simp only [State.validIs, hfree]
    rfl
  exact ⟨_, rfl, exec_ctrFree_of_live hslot, exec_of_slotOk_false (i := .ctrFree ctx) hinvalid,
    exec_of_slotOk_false (i := .ctrRead ctx) hinvalid,
    fun key data => exec_of_slotOk_false (i := .ctrApply ctx key data) hinvalid,
    fun _ hiv => exec_ctrNew_of_free hfree hiv⟩

end Sys2Proof.Machine

/-! The factorizer: what a search can come to, for any integer, for the product of two primes and for an
integer without a factor pair (rules R120 to R127). -/

namespace Sys2Proof.Machine

section Divisors

/-- The candidates stand in rising order. -/
theorem sortedLT_properDivisors (n : Nat) : (properDivisors n).SortedLT :=
  (List.pairwise_lt_range.sublist List.filter_sublist).sortedLT

theorem properDivisors_eq_nil {n : Nat} (h : ∀ g : Nat, 1 < g → g < n → ¬ g ∣ n) :
    properDivisors n = [] :=
  List.eq_nil_iff_forall_not_mem.mpr fun g hg => by
    obtain ⟨hone, hlt, hdvd⟩ := mem_properDivisors.mp hg
    exact h g hone hlt hdvd

theorem properDivisors_prime {p : Nat} (hp : p.Prime) : properDivisors p = [] :=
  properDivisors_eq_nil fun g hone hlt hdvd => by
    obtain h | h := (Nat.dvd_prime hp).mp hdvd <;> omega

/-- The proper divisors of a product of two primes are the primes. -/
theorem mem_properDivisors_mul {p q : Nat} (hp : p.Prime) (hq : q.Prime) (g : Nat) :
    g ∈ properDivisors (p * q) ↔ g = p ∨ g = q := by
  have hp1 := hp.one_lt
  have hq1 := hq.one_lt
  rw [mem_properDivisors]
  constructor
  · rintro ⟨hone, hlt, hdvd⟩
    obtain ⟨a, b, ha, hb, rfl⟩ := exists_dvd_and_dvd_of_dvd_mul hdvd
    obtain rfl | rfl := (Nat.dvd_prime hp).mp ha <;> obtain rfl | rfl := (Nat.dvd_prime hq).mp hb
    · omega
    · simp
    · simp
    · omega
  · rintro (rfl | rfl)
    · exact ⟨hp1, by nlinarith, dvd_mul_right g q⟩
    · exact ⟨hq1, by nlinarith, dvd_mul_left g p⟩

theorem properDivisors_mul_of_lt {p q : Nat} (hp : p.Prime) (hq : q.Prime) (hlt : p < q) :
    properDivisors (p * q) = [p, q] :=
  (sortedLT_properDivisors _).eq_of_mem_iff (by simp [List.sortedLT_iff_pairwise, hlt])
    (by simp [mem_properDivisors_mul hp hq])

theorem twoDistinctPrimes_mul {p q : Nat} (hp : p.Prime) (hq : q.Prime) (hlt : p < q) :
    twoDistinctPrimes (p * q) = true := by
  simp [twoDistinctPrimes, properDivisors_mul_of_lt hp hq hlt, properDivisors_prime hp,
    properDivisors_prime hq]

/-- Rule R122: either of two primes leads to the ordered pair of both. -/
theorem orderedPair_mul {p q g : Nat} (hp : p.Prime) (hq : q.Prime) (hle : p ≤ q)
    (hg : g ∈ properDivisors (p * q)) : orderedPair (p * q) g = .pair p q := by
  obtain rfl | rfl := (mem_properDivisors_mul hp hq g).mp hg
  · simp [orderedPair, Nat.mul_div_cancel_left q hp.pos, hle]
  · simp [orderedPair, Nat.mul_div_cancel p hq.pos, hle]

/-- Rule R122: the pair of a proper divisor meets the contract. -/
theorem orderedPair_contract {n g : Nat} (hg : g ∈ properDivisors n) :
    ∃ p q, orderedPair n g = .pair p q ∧ p * q = n ∧ 1 < p ∧ p ≤ q ∧ q < n := by
  obtain ⟨hone, hlt, k, rfl⟩ := mem_properDivisors.mp hg
  have hk : g * k / g = k := Nat.mul_div_cancel_left k (by omega)
  have hk1 : 1 < k := by nlinarith
  have hklt : k < g * k := by nlinarith
  refine ⟨min g k, max g k, by rw [orderedPair, hk], min_mul_max g k, lt_min hone hk1,
    min_le_max, max_lt hlt hklt⟩

end Divisors

section Outcomes

variable (budget : Option Nat) (draw : FactorDraw)

/-- Entry U4: what a search among no candidates comes to. -/
theorem factorOutcome_of_no_divisor {n : Nat} (hn : properDivisors n = []) :
    factorOutcome budget draw n = noFactorFound budget := by
  simp [factorOutcome, hn]

theorem noFactorFound_cases :
    budget.isSome = true ∧ noFactorFound budget = .notFactorable ∨
      budget = none ∧ noFactorFound budget = .neverCompletes := by
  cases budget with
  | none => exact .inr ⟨rfl, rfl⟩
  | some b => exact .inl ⟨rfl, rfl⟩

/-- A candidate taken by number, modulo how many there are, is one of them. -/
theorem getD_mod_length_mem (g : Nat) (gs : List Nat) (k : Nat) :
    (g :: gs).getD (k % (g :: gs).length) g ∈ g :: gs := by
  have hlt : k % (g :: gs).length < (g :: gs).length := Nat.mod_lt _ (by simp)
  rw [List.getD_eq_getElem _ _ hlt]
  exact List.getElem_mem hlt

/-- What the search for two distinct primes comes to (rules R122, R125): the pair of a proper divisor,
or, with a finite budget only, `NotFactorable`. -/
theorem factorOutcome_of_twoDistinctPrimes {n : Nat} (hn : twoDistinctPrimes n = true) :
    (∃ g ∈ properDivisors n, factorOutcome budget draw n = orderedPair n g) ∨
      (budget.isSome = true ∧ factorOutcome budget draw n = .notFactorable) := by
  cases hdiv : properDivisors n with
  | nil => simp [twoDistinctPrimes, hdiv] at hn
  | cons g gs =>
    cases draw with
    | finds k => exact .inl ⟨_, getD_mod_length_mem g gs k, by simp only [factorOutcome, hdiv]⟩
    | exhausts =>
      cases budget with
      | none => exact .inl ⟨g, List.mem_cons_self, by simp [factorOutcome, hdiv, hn]⟩
      | some b => exact .inr ⟨rfl, by simp [factorOutcome, hdiv, noFactorFound]⟩
    | cycles =>
      cases budget with
      | none => exact .inl ⟨g, List.mem_cons_self, by simp [factorOutcome, hdiv, hn]⟩
      | some b => exact .inr ⟨rfl, by simp [factorOutcome, hdiv, hn]⟩

/-- What any search comes to (rules R122, R124, R125): the pair of a proper divisor, or, with a finite
budget only, `NotFactorable`, or nothing ever. -/
theorem factorOutcome_cases (n : Nat) :
    (∃ g ∈ properDivisors n, factorOutcome budget draw n = orderedPair n g) ∨
      (budget.isSome = true ∧ factorOutcome budget draw n = .notFactorable) ∨
      factorOutcome budget draw n = .neverCompletes := by
  cases htwo : twoDistinctPrimes n with
  | true =>
    obtain hpair | hgave := factorOutcome_of_twoDistinctPrimes budget draw htwo
    · exact .inl hpair
    · exact .inr (.inl hgave)
  | false =>
    have hnone : factorOutcome budget draw n = noFactorFound budget →
        (budget.isSome = true ∧ factorOutcome budget draw n = .notFactorable) ∨
          factorOutcome budget draw n = .neverCompletes := by
      intro h
      rw [h]
      exact (noFactorFound_cases budget).imp_right And.right
    cases hdiv : properDivisors n with
    | nil => exact .inr (hnone (factorOutcome_of_no_divisor budget draw hdiv))
    | cons g gs =>
      cases draw with
      | finds k => exact .inl ⟨_, getD_mod_length_mem g gs k, by simp only [factorOutcome, hdiv]⟩
      | exhausts => exact .inr (hnone (by simp [factorOutcome, hdiv, htwo]))
      | cycles => exact .inr (.inr (by simp [factorOutcome, hdiv, htwo]))

end Outcomes

/-- The state after a search that came to an outcome (rules R122, R124, R125). -/
def State.afterSearch (s : State) : FactorOutcome → State
  | .pair p q => s.countDraw.respond (opByte .factor) .ok (factorResult p q)
  | .notFactorable => s.countDraw.raise (opByte .factor) .notFactorable
  | .neverCompletes => s.countDraw.searchForever

/-- Rules R121, R122: with the unit and 8 bytes `FACTOR` ends as its search does. -/
theorem exec_factor_of_unit {s : State} {data : Bytes} (hunit : s.params.hasFactorizer = true)
    (hdata : data.length = 8) :
    exec (.factor data) s = .next (s.afterSearch (factorOutcome s.params.factorBudget
      (Config.factorDraw s.params.randomSource s.draws (be data)) (be data))) := by
  simp only [exec, execFactor, hunit, (factorLengthOk_iff data).mpr hdata, if_true]
  generalize factorOutcome _ _ _ = outcome
  cases outcome <;> rfl

/-- Rule R121: the integer of the 8 bytes of a number they can hold. -/
theorem be_bytesBe_eight {n : Nat} (hn : n < 2 ^ 64) : be (bytesBe n 8) = n := by
  rw [be_bytesBe]
  exact Nat.mod_eq_of_lt hn

/-- Settles O42: without the unit the response is all the effect that `FACTOR` has. -/
theorem factorWithoutTheUnitIsIllegal : Obligations.FactorWithoutTheUnitIsIllegal :=
  fun _ data hunit => exec_factor_of_no_unit data hunit

section Products

variable {s : State} {p q : Nat}

/-- Rules R122, R125: what `FACTOR` of the product of two distinct primes comes to. -/
theorem exec_factor_mul (hp : p.Prime) (hq : q.Prime) (hlt : p < q) (hsize : p * q < 2 ^ 64)
    (hunit : s.params.hasFactorizer = true) :
    exec (.factor (bytesBe (p * q) 8)) s = .next (s.afterSearch (.pair p q)) ∨
      (s.params.factorBudget.isSome = true ∧
        exec (.factor (bytesBe (p * q) 8)) s = .next (s.afterSearch .notFactorable)) := by
  rw [exec_factor_of_unit hunit (length_bytesBe _ 8), be_bytesBe_eight hsize]
  obtain ⟨g, hg, h⟩ | ⟨hfinite, h⟩ := factorOutcome_of_twoDistinctPrimes s.params.factorBudget
    (Config.factorDraw s.params.randomSource s.draws (p * q)) (twoDistinctPrimes_mul hp hq hlt)
  · rw [h, orderedPair_mul hp hq hlt.le hg]
    exact .inl rfl
  · rw [h]
    exact .inr ⟨hfinite, rfl⟩

/-- Settles O43: with an infinite budget the search for two distinct primes does not give up. -/
theorem factorFindsTheTwoPrimes : Obligations.FactorFindsTheTwoPrimes := by
  intro s p q hp hq hlt hsize hunit hbudget
  obtain h | ⟨hfinite, -⟩ := exec_factor_mul hp hq hlt hsize hunit
  · exact h
  · simp [hbudget] at hfinite

/-- Settles O44: either divisor that a draw leads to gives the same pair. -/
theorem factorWithABudgetFindsTheTwoPrimesOrGivesUp :
    Obligations.FactorWithABudgetFindsTheTwoPrimesOrGivesUp := by
  intro s p q b hp hq hlt hsize hunit _
  exact (exec_factor_mul hp hq hlt hsize hunit).imp_right And.right

/-- Settles O47: the root is the only proper divisor of the square of a prime. -/
theorem factorOfAPrimeSquareCanOnlyReturnTheRoot :
    Obligations.FactorOfAPrimeSquareCanOnlyReturnTheRoot := by
  intro s p hp hsize hunit
  rw [exec_factor_of_unit hunit (length_bytesBe _ 8), be_bytesBe_eight hsize]
  obtain ⟨g, hg, h⟩ | ⟨-, h⟩ | h := factorOutcome_cases s.params.factorBudget
    (Config.factorDraw s.params.randomSource s.draws (p * p)) (p * p)
  · rw [h, orderedPair_mul hp hp le_rfl hg]
    exact .inl rfl
  · rw [h]
    exact .inr (.inl rfl)
  · rw [h]
    exact .inr (.inr rfl)

end Products

/-- Settles O46: without a candidate the search ends by its budget or not at all. -/
theorem factorWithoutAPairNeverAnswersOk : Obligations.FactorWithoutAPairNeverAnswersOk := by
  intro s data hdata hunit hno
  rw [exec_factor_of_unit hunit hdata,
    factorOutcome_of_no_divisor _ _ (properDivisors_eq_nil hno)]
  constructor
  · intro hfinite
    rw [noFactorFound, if_pos hfinite]
    rfl
  · intro hinfinite
    rw [noFactorFound, hinfinite]
    rfl

/-- What a response appends says which response it is. -/
theorem response_eq_inj {sent : Bytes} {op op' : Byte} {st st' : Status} {r r' : Bytes}
    (h : sent ++ responsePacket op st r = sent ++ responsePacket op' st' r') :
    op = op' ∧ st = st' ∧ r = r' :=
  responsePacket_inj (List.append_cancel_left h)

/-- The outcomes that a search on the integer `n` may have (rules R122, R124, R125): a pair only if it
meets the contract, `NotFactorable` only if the budget is finite. -/
def FactorOutcome.Allowed (budget : Option Nat) (n : Nat) : FactorOutcome → Prop
  | .pair p q => p * q = n ∧ 1 < p ∧ p ≤ q ∧ q < n
  | .notFactorable => budget.isSome = true
  | .neverCompletes => True

theorem factorOutcome_allowed (budget : Option Nat) (draw : FactorDraw) (n : Nat) :
    (factorOutcome budget draw n).Allowed budget n := by
  obtain ⟨g, hg, h⟩ | ⟨hfinite, h⟩ | h := factorOutcome_cases budget draw n
  · obtain ⟨p, q, hpair, hcontract⟩ := orderedPair_contract hg
    rw [h, hpair]
    exact hcontract
  · rw [h]
    exact hfinite
  · rw [h]
    exact trivial

/-- What `FACTOR` can come to, whatever its data (rules R120 to R125): an error of which its unit or its
length is the cause, or an allowed outcome of a search on 8 bytes. -/
theorem exec_factor_cases (s : State) (data : Bytes) :
    (∃ st, (st = .illegalCommand ∨ st = .invalidLength) ∧
        exec (.factor data) s = .next (s.raise (opByte .factor) st)) ∨
      s.params.hasFactorizer = true ∧ data.length = 8 ∧
        ∃ o : FactorOutcome, o.Allowed s.params.factorBudget (be data) ∧
          exec (.factor data) s = .next (s.afterSearch o) := by
  cases hunit : s.params.hasFactorizer with
  | false => exact .inl ⟨_, .inl rfl, exec_of_unitOk_false (i := .factor data) hunit⟩
  | true =>
    cases hlen : factorLengthOk data with
    | false => exact .inl ⟨_, .inr rfl, exec_of_lengthsOk_false (i := .factor data) hunit rfl hlen⟩
    | true =>
      have hdata := (factorLengthOk_iff data).mp hlen
      exact .inr ⟨rfl, hdata, _, factorOutcome_allowed _ _ _, exec_factor_of_unit hunit hdata⟩

namespace State

variable (s : State) (o : FactorOutcome)

@[simp] theorem afterSearch_ctx : (s.afterSearch o).ctx = s.ctx := by cases o <;> rfl

@[simp] theorem afterSearch_command : (s.afterSearch o).command = s.command := by cases o <;> rfl

@[simp] theorem afterSearch_params : (s.afterSearch o).params = s.params := by cases o <;> rfl

end State

/-- Settles O49: neither an error nor a search touches slots, parameters or the command port. -/
theorem factorLeavesTheModeEngineAlone : Obligations.FactorLeavesTheModeEngineAlone := by
  intro s data
  obtain ⟨st, -, h⟩ | ⟨-, -, o, -, h⟩ := exec_factor_cases s data
  · exact ⟨_, h, rfl, rfl, rfl⟩
  · exact ⟨_, h, s.afterSearch_ctx o, s.afterSearch_params o, s.afterSearch_command o⟩

theorem length_factorResult (p q : Nat) : (factorResult p q).length = 16 := by
  simp [factorResult, Config.factorBytes]

/-- Settles O45: a response that is `OK` is the one of an allowed pair, whose two numbers fit in 8 bytes
as the input did. -/
theorem factorOkMeetsTheContract : Obligations.FactorOkMeetsTheContract := by
  intro s t data r hexec hresponse
  obtain ⟨st, hst, h⟩ | ⟨-, hdata, o, ho, h⟩ := exec_factor_cases s data
  · cases h.symm.trans hexec
    obtain ⟨-, hok, -⟩ := response_eq_inj hresponse
    obtain rfl | rfl := hst <;> cases hok
  · cases h.symm.trans hexec
    cases o with
    | pair p q =>
      obtain ⟨-, -, rfl⟩ := response_eq_inj hresponse
      obtain ⟨hmul, hp1, hle, hqn⟩ := ho
      have hn : be data < 2 ^ 64 := by
        have hlt := be_lt data
        rwa [hdata] at hlt
      have hp : be (bytesBe p 8) = p := be_bytesBe_eight (by omega)
      have hq : be (bytesBe q 8) = q := be_bytesBe_eight (by omega)
      have htake : (factorResult p q).take 8 = bytesBe p 8 := List.take_left' (length_bytesBe p 8)
      have hdrop : (factorResult p q).drop 8 = bytesBe q 8 := List.drop_left' (length_bytesBe p 8)
      rw [htake, hdrop, hp, hq]
      exact ⟨length_factorResult p q, hmul, hp1, hle⟩
    | notFactorable =>
      obtain ⟨-, hok, -⟩ := response_eq_inj hresponse
      cases hok
    | neverCompletes => exact absurd hresponse (append_responsePacket_ne _ _ _ _)

end Sys2Proof.Machine

/-! The modes IGE and CBC: each of the four loops is one loop that makes a block of result from a block of
data, the block of result before it and the block of data before it. The laws of that loop (closed form,
inverse, continuation) are proved once (rules R81 to R85, R111 to R113). -/

namespace Sys2Proof.Machine

section Chaining

variable (f : Block → Block → Block → Block)

/-- The loop of a chaining mode: `f` takes the block of data, the block of result before it and the block
of data before it. -/
def chainBlocks : List Block → Block → Block → List Block
  | [], _, _ => []
  | m :: ms, prevOut, prevIn =>
    let c := f m prevOut prevIn
    c :: chainBlocks ms c m

/-- The result of a chaining mode on a byte sequence. -/
def chain (prevOut prevIn : Block) (data : Bytes) : Bytes :=
  bytesOfBlocks (chainBlocks f (blocksOf data) prevOut prevIn)

variable (o p : Block)

@[simp] theorem length_chainBlocks (ms : List Block) : (chainBlocks f ms o p).length = ms.length := by
  induction ms generalizing o p with
  | nil => rfl
  | cons m ms ih => simp [chainBlocks, ih]

/-- Block `i` of the result, from block `i` of the data and the two blocks before. -/
theorem getElem?_chainBlocks {ms : List Block} {i : Nat} {m c d : Block} (hm : ms[i]? = some m)
    (hc : (o :: chainBlocks f ms o p)[i]? = some c) (hd : (p :: ms)[i]? = some d) :
    (chainBlocks f ms o p)[i]? = some (f m c d) := by
  induction ms generalizing i o p with
  | nil => simp at hm
  | cons m' ms ih =>
    cases i with
    | zero =>
      simp only [List.getElem?_cons_zero, Option.some.injEq] at hm hc hd
      simp [chainBlocks, hm, hc, hd]
    | succ i =>
      rw [List.getElem?_cons_succ] at hm hc hd
      exact ih _ _ hm hc hd

/-- The loop goes on from the last blocks of result and data. -/
theorem chainBlocks_append (ms ns : List Block) :
    chainBlocks f (ms ++ ns) o p = chainBlocks f ms o p ++
      chainBlocks f ns ((chainBlocks f ms o p).getLastD o) (ms.getLastD p) := by
  induction ms generalizing o p with
  | nil => rfl
  | cons m ms ih => simp only [List.cons_append, chainBlocks, ih, List.getLastD_cons]

/-- The loop of `g` undoes that of `f` if `g` undoes `f` with the roles of the two chaining values
exchanged. -/
theorem chainBlocks_chainBlocks {g : Block → Block → Block → Block}
    (hg : ∀ m o p, g (f m o p) p o = m) (ms : List Block) :
    chainBlocks g (chainBlocks f ms o p) p o = ms := by
  induction ms generalizing o p with
  | nil => rfl
  | cons m ms ih => simp only [chainBlocks, hg, ih]

@[simp] theorem blocksOf_chain (data : Bytes) :
    blocksOf (chain f o p data) = chainBlocks f (blocksOf data) o p := blocksOf_bytesOfBlocks _

theorem length_chain {data : Bytes} (hdata : data.length % 16 = 0) :
    (chain f o p data).length = data.length := by
  simp only [chain, length_bytesOfBlocks, length_chainBlocks, length_blocksOf]
  omega

/-- The block before block `i` of a sequence that `x` stands before. -/
theorem getElem?_cons_blocksOf (x : Block) {s : Bytes} {i : Nat} (hi : i < s.length / 16) :
    (x :: blocksOf s)[i]? = some (if i = 0 then x else blk s (i - 1)) := by
  cases i with
  | zero => rfl
  | succ i => simpa using getElem?_blocksOf s i (by omega)

/-- Rules R81, R111: the closed form of a chaining mode, block by block. -/
theorem blk_chain {data : Bytes} (hdata : data.length % 16 = 0) {i : Nat} (hi : i < data.length / 16) :
    blk (chain f o p data) i = f (blk data i) (if i = 0 then o else blk (chain f o p data) (i - 1))
      (if i = 0 then p else blk data (i - 1)) := by
  have hlen : i < (chain f o p data).length / 16 := by rwa [length_chain f o p hdata]
  have hout := getElem?_cons_blocksOf o hlen
  have hblk := getElem?_blocksOf _ i hlen
  rw [blocksOf_chain] at hout hblk
  exact Option.some.inj (hblk.symm.trans
    (getElem?_chainBlocks f o p (getElem?_blocksOf data i hi) hout (getElem?_cons_blocksOf p hi)))

/-- Rules R84, R113: the mode of `g` undoes that of `f`. -/
theorem chain_chain {g : Block → Block → Block → Block} (hg : ∀ m o p, g (f m o p) p o = m)
    {data : Bytes} (hdata : data.length % 16 = 0) : chain g p o (chain f o p data) = data := by
  rw [chain, blocksOf_chain, chainBlocks_chainBlocks f o p hg, bytesOfBlocks_blocksOf data hdata]

theorem bytesOfBlocks_append (as bs : List Block) :
    bytesOfBlocks (as ++ bs) = bytesOfBlocks as ++ bytesOfBlocks bs := List.flatMap_append

/-- The blocks of two sequences of whole blocks, one after the other. -/
theorem blocksOf_append_of_whole {a b : Bytes} (ha : a.length % 16 = 0) (hb : b.length % 16 = 0) :
    blocksOf (a ++ b) = blocksOf a ++ blocksOf b := by
  have hab : a ++ b = bytesOfBlocks (blocksOf a ++ blocksOf b) := by
    rw [bytesOfBlocks_append, bytesOfBlocks_blocksOf a ha, bytesOfBlocks_blocksOf b hb]
  rw [hab, blocksOf_bytesOfBlocks]

/-- A mode goes on from the last blocks of result and data. -/
theorem chain_append {a b : Bytes} (ha : a.length % 16 = 0) (hb : b.length % 16 = 0) :
    chain f o p (a ++ b) = chain f o p a ++
      chain f ((chainBlocks f (blocksOf a) o p).getLastD o) ((blocksOf a).getLastD p) b := by
  simp only [chain, blocksOf_append_of_whole ha hb, chainBlocks_append, bytesOfBlocks_append]

/-- Rule R85: the first blocks of the result are the result on the first blocks of the data. -/
theorem chain_take {data : Bytes} {k : Nat} (hdata : data.length % 16 = 0)
    (hk : 16 * k ≤ data.length) :
    chain f o p (data.take (16 * k)) = (chain f o p data).take (16 * k) := by
  have hlen : (data.take (16 * k)).length = 16 * k := List.length_take_of_le hk
  have ha : (data.take (16 * k)).length % 16 = 0 := by omega
  have hb : (data.drop (16 * k)).length % 16 = 0 := by
    rw [List.length_drop]
    omega
  conv_rhs => rw [← List.take_append_drop (16 * k) data, chain_append f o p ha hb]
  exact (List.take_left' ((length_chain f o p ha).trans hlen)).symm

/-- The last of some blocks is made of their last 16 bytes. -/
theorem getLastD_eq_blockOfBytes {bs : List Block} (hbs : bs ≠ []) (x : Block) :
    bs.getLastD x =
      blockOfBytes ((bytesOfBlocks bs).drop ((bytesOfBlocks bs).length - 16)) := by
  obtain ⟨as, b, rfl⟩ := List.eq_nil_or_concat' bs |>.resolve_left hbs
  have hdrop : (bytesOfBlocks (as ++ [b])).drop ((bytesOfBlocks (as ++ [b])).length - 16) =
      bytesOfBlock b := by
    have hsingle : bytesOfBlocks [b] = bytesOfBlock b := List.append_nil _
    rw [bytesOfBlocks_append, hsingle]
    exact List.drop_left' (by simp)
  rw [hdrop, blockOfBytes_bytesOfBlock, List.getLastD_concat]

/-- Rules R18, R113: a message in two parts, the second from the last block of result and the last block
of data of the first. -/
theorem chain_continues {a b : Bytes} (ha0 : a.length ≠ 0) (ha : a.length % 16 = 0)
    (hb : b.length % 16 = 0) :
    chain f o p (a ++ b) = chain f o p a ++
      chain f (blockOfBytes ((chain f o p a).drop (a.length - 16)))
        (blockOfBytes (a.drop (a.length - 16))) b := by
  have hblocks : (blocksOf a).length ≠ 0 := by
    rw [length_blocksOf]
    omega
  have hin : blocksOf a ≠ [] := fun h => hblocks (by rw [h]; rfl)
  have hout : chainBlocks f (blocksOf a) o p ≠ [] := fun h =>
    hblocks (by rw [← length_chainBlocks f o p, h]; rfl)
  have hlen := length_chain f o p ha
  rw [chain_append f o p ha hb, getLastD_eq_blockOfBytes hout, getLastD_eq_blockOfBytes hin,
    bytesOfBlocks_blocksOf a ha, ← chain, hlen]

/-- The last 16 bytes of a sequence, and of a mode's result on it, are 16 bytes. -/
theorem length_drop_last {a : Bytes} (ha0 : a.length ≠ 0) (ha : a.length % 16 = 0) :
    (a.drop (a.length - 16)).length = 16 ∧
      ((chain f o p a).drop (a.length - 16)).length = 16 := by
  rw [List.length_drop, List.length_drop, length_chain f o p ha]
  omega

end Chaining

section Modes

/-- A block of `IGE_ENC` (rule R81), and with `D` for `E` one of `IGE_DEC` (rule R82). -/
def igeBlock (E : Block → Block) (m prevOut prevIn : Block) : Block := E (m ^^^ prevOut) ^^^ prevIn

/-- A block of `CBC_ENC` (rule R111). -/
def cbcEncBlock (E : Block → Block) (m prevOut _ : Block) : Block := E (m ^^^ prevOut)

/-- A block of `CBC_DEC` (rule R112). -/
def cbcDecBlock (D : Block → Block) (c _ prevIn : Block) : Block := D c ^^^ prevIn

section Inverses

variable {E D : Block → Block}

theorem igeBlock_igeBlock (h : Function.LeftInverse D E) (m o p : Block) :
    igeBlock D (igeBlock E m o p) p o = m := by
  simp only [igeBlock, BitVec.xor_assoc, BitVec.xor_self, BitVec.xor_zero, h (m ^^^ o)]

theorem cbcDecBlock_cbcEncBlock (h : Function.LeftInverse D E) (m o p : Block) :
    cbcDecBlock D (cbcEncBlock E m o p) p o = m := by
  simp only [cbcDecBlock, cbcEncBlock, h (m ^^^ o), BitVec.xor_assoc, BitVec.xor_self,
    BitVec.xor_zero]

theorem cbcEncBlock_cbcDecBlock (h : Function.RightInverse D E) (c o p : Block) :
    cbcEncBlock E (cbcDecBlock D c o p) p o = c := by
  simp only [cbcDecBlock, cbcEncBlock, BitVec.xor_assoc, BitVec.xor_self, BitVec.xor_zero, h c]

end Inverses

variable (E D : Block → Block)

theorem igeEncBlocks_eq_chainBlocks (ms : List Block) (ct pt : Block) :
    igeEncBlocks E ms ct pt = chainBlocks (igeBlock E) ms ct pt := by
  induction ms generalizing ct pt with
  | nil => rfl
  | cons m ms ih => simp only [igeEncBlocks, chainBlocks, ih, igeBlock]

/-- Rule R82: the block of result before is now the plaintext block. -/
theorem igeDecBlocks_eq_chainBlocks (cs : List Block) (ct pt : Block) :
    igeDecBlocks D cs ct pt = chainBlocks (igeBlock D) cs pt ct := by
  induction cs generalizing ct pt with
  | nil => rfl
  | cons c cs ih => simp only [igeDecBlocks, chainBlocks, ih, igeBlock]

/-- The block of data before plays no part in `CBC_ENC`. -/
theorem cbcEncBlocks_eq_chainBlocks (ms : List Block) (prev x : Block) :
    cbcEncBlocks E ms prev = chainBlocks (cbcEncBlock E) ms prev x := by
  induction ms generalizing prev x with
  | nil => rfl
  | cons m ms ih => simp only [cbcEncBlocks, chainBlocks, cbcEncBlock, ← ih]

/-- The block of result before plays no part in `CBC_DEC`. -/
theorem cbcDecBlocks_eq_chainBlocks (cs : List Block) (prev x : Block) :
    cbcDecBlocks D cs prev = chainBlocks (cbcDecBlock D) cs x prev := by
  induction cs generalizing prev x with
  | nil => rfl
  | cons c cs ih => simp only [cbcDecBlocks, chainBlocks, cbcDecBlock, ← ih]

variable (iv data : Bytes)

theorem igeEncrypt_eq_chain :
    igeEncrypt E iv data = chain (igeBlock E) (blk iv 0) (blk iv 1) data := by
  rw [igeEncrypt, igeEncBlocks_eq_chainBlocks]
  rfl

theorem igeDecrypt_eq_chain :
    igeDecrypt D iv data = chain (igeBlock D) (blk iv 1) (blk iv 0) data := by
  rw [igeDecrypt, igeDecBlocks_eq_chainBlocks]
  rfl

theorem cbcEncrypt_eq_chain (x : Block) :
    cbcEncrypt E iv data = chain (cbcEncBlock E) (blk iv 0) x data := by
  rw [cbcEncrypt, cbcEncBlocks_eq_chainBlocks E _ _ x]
  rfl

theorem cbcDecrypt_eq_chain (x : Block) :
    cbcDecrypt D iv data = chain (cbcDecBlock D) x (blk iv 0) data := by
  rw [cbcDecrypt, cbcDecBlocks_eq_chainBlocks D _ _ x]
  rfl

end Modes

/-- The cipher of a command, both ways (rule R71). -/
theorem cipherD_leftInverse (c : Cipher) (key : Bytes) :
    Function.LeftInverse (cipherD c key) (cipherE c key) :=
  cipherUnit_dec_leftInverse c (keyOfBytes key)

theorem cipherD_rightInverse (c : Cipher) (key : Bytes) :
    Function.RightInverse (cipherD c key) (cipherE c key) :=
  cipherUnit_dec_rightInverse c (keyOfBytes key)

section Ige

variable {key iv data : Bytes} (h0 : data.length ≠ 0) (h16 : data.length % 16 = 0)
  (hkey : key.length = 32) (hiv : iv.length = 32) (s : State)
include h0 h16 hkey hiv

/-- Rules R80, R81: with valid lengths `IGE_ENC` answers with the result of its loop. -/
theorem exec_igeEnc :
    exec (.igeEnc key iv data) s = .next (s.respond (opByte .igeEnc) .ok
      (chain (igeBlock (cipherE s.params.cipher key)) (blk iv 0) (blk iv 1) data)) := by
  rw [← igeEncrypt_eq_chain]
  exact if_pos ((igeLengthsOk_iff key iv data).mpr ⟨h0, h16, hkey, hiv⟩)

/-- Rules R80, R82: with valid lengths `IGE_DEC` answers with the result of its loop. -/
theorem exec_igeDec :
    exec (.igeDec key iv data) s = .next (s.respond (opByte .igeDec) .ok
      (chain (igeBlock (cipherD s.params.cipher key)) (blk iv 1) (blk iv 0) data)) := by
  rw [← igeDecrypt_eq_chain]
  exact if_pos ((igeLengthsOk_iff key iv data).mpr ⟨h0, h16, hkey, hiv⟩)

end Ige

section Cbc

variable {key iv data : Bytes} (h0 : data.length ≠ 0) (h16 : data.length % 16 = 0)
  (hkey : key.length = 32) (hiv : iv.length = 16) (s : State) (x : Block)
include h0 h16 hkey hiv

/-- Rules R110, R111: with valid lengths `CBC_ENC` answers with the result of its loop. -/
theorem exec_cbcEnc :
    exec (.cbcEnc key iv data) s = .next (s.respond (opByte .cbcEnc) .ok
      (chain (cbcEncBlock (cipherE s.params.cipher key)) (blk iv 0) x data)) := by
  rw [← cbcEncrypt_eq_chain]
  exact if_pos ((cbcLengthsOk_iff key iv data).mpr ⟨h0, h16, hkey, hiv⟩)

/-- Rules R110, R112: with valid lengths `CBC_DEC` answers with the result of its loop. -/
theorem exec_cbcDec :
    exec (.cbcDec key iv data) s = .next (s.respond (opByte .cbcDec) .ok
      (chain (cbcDecBlock (cipherD s.params.cipher key)) x (blk iv 0) data)) := by
  rw [← cbcDecrypt_eq_chain]
  exact if_pos ((cbcLengthsOk_iff key iv data).mpr ⟨h0, h16, hkey, hiv⟩)

end Cbc

/-- Settles O23, by the closed form of a chaining mode. -/
theorem igeEncResult : Obligations.IgeEncResult := fun s _ _ _ h0 h16 hkey hiv =>
  ⟨_, exec_igeEnc h0 h16 hkey hiv s, length_chain _ _ _ h16, fun _ hi => blk_chain _ _ _ h16 hi⟩

/-- Settles O24, by the closed form of a chaining mode. -/
theorem igeDecResult : Obligations.IgeDecResult := fun s _ _ _ h0 h16 hkey hiv =>
  ⟨_, exec_igeDec h0 h16 hkey hiv s, length_chain _ _ _ h16, fun _ hi => blk_chain _ _ _ h16 hi⟩

/-- Settles O29, by the closed form of a chaining mode. -/
theorem cbcEncResult : Obligations.CbcEncResult := fun s _ _ _ h0 h16 hkey hiv =>
  ⟨_, exec_cbcEnc h0 h16 hkey hiv s 0, length_chain _ _ _ h16, fun _ hi => blk_chain _ _ _ h16 hi⟩

/-- Settles O30, by the closed form of a chaining mode. -/
theorem cbcDecResult : Obligations.CbcDecResult := fun s _ _ _ h0 h16 hkey hiv =>
  ⟨_, exec_cbcDec h0 h16 hkey hiv s 0, length_chain _ _ _ h16, fun _ hi => blk_chain _ _ _ h16 hi⟩

/-- Settles O25: the two modes undo each other block by block, as the cipher's two directions do. -/
theorem igeRoundTrip : Obligations.IgeRoundTrip := by
  intro c key iv data h0 h16 hkey hiv
  refine ⟨chain (igeBlock (cipherE c key)) (blk iv 0) (blk iv 1) data,
    chain (igeBlock (cipherD c key)) (blk iv 1) (blk iv 0) data, length_chain _ _ _ h16,
    length_chain _ _ _ h16, ?_⟩
  rintro s rfl
  refine ⟨exec_igeEnc h0 h16 hkey hiv s, ?_, exec_igeDec h0 h16 hkey hiv s, ?_⟩
  · rw [exec_igeDec (by rwa [length_chain _ _ _ h16]) (by rwa [length_chain _ _ _ h16]) hkey hiv,
      chain_chain _ _ _ (igeBlock_igeBlock (cipherD_leftInverse _ key)) h16]
    rfl
  · rw [exec_igeEnc (by rwa [length_chain _ _ _ h16]) (by rwa [length_chain _ _ _ h16]) hkey hiv,
      chain_chain _ _ _ (igeBlock_igeBlock (cipherD_rightInverse _ key)) h16]
    rfl

/-- Settles O31: the two modes undo each other block by block, as the cipher's two directions do. -/
theorem cbcRoundTrip : Obligations.CbcRoundTrip := by
  intro c key iv data h0 h16 hkey hiv
  refine ⟨chain (cbcEncBlock (cipherE c key)) (blk iv 0) 0 data,
    chain (cbcDecBlock (cipherD c key)) 0 (blk iv 0) data, length_chain _ _ _ h16,
    length_chain _ _ _ h16, ?_⟩
  rintro s rfl
  refine ⟨exec_cbcEnc h0 h16 hkey hiv s 0, ?_, exec_cbcDec h0 h16 hkey hiv s 0, ?_⟩
  · rw [exec_cbcDec (by rwa [length_chain _ _ _ h16]) (by rwa [length_chain _ _ _ h16]) hkey hiv s 0,
      chain_chain _ _ _ (cbcDecBlock_cbcEncBlock (cipherD_leftInverse _ key)) h16]
    rfl
  · rw [exec_cbcEnc (by rwa [length_chain _ _ _ h16]) (by rwa [length_chain _ _ _ h16]) hkey hiv s 0,
      chain_chain _ _ _ (cbcEncBlock_cbcDecBlock (cipherD_rightInverse _ key)) h16]
    rfl

/-- Settles O26: a chaining mode's first blocks do not depend on later data. -/
theorem igePrefixesAreIndependentOfLaterData : Obligations.IgePrefixesAreIndependentOfLaterData := by
  intro s key iv data k h16 hkey hiv hk hle
  have h0 : data.length ≠ 0 := by omega
  have hlen : (data.take (16 * k)).length = 16 * k := List.length_take_of_le hle
  have h0' : (data.take (16 * k)).length ≠ 0 := by omega
  have h16' : (data.take (16 * k)).length % 16 = 0 := by omega
  refine ⟨_, _, exec_igeEnc h0 h16 hkey hiv s, ?_, exec_igeDec h0 h16 hkey hiv s, ?_⟩
  · rw [exec_igeEnc h0' h16' hkey hiv, chain_take _ _ _ h16 hle]
    rfl
  · rw [exec_igeDec h0' h16' hkey hiv, chain_take _ _ _ h16 hle]
    rfl

/-- Block 0 of 16 bytes and more is made of those 16. -/
theorem blk_append_zero {x : Bytes} (hx : x.length = 16) (y : Bytes) :
    blk (x ++ y) 0 = blockOfBytes x := by
  simp [blk, memRead, ← hx]

theorem blk_append_one {x y : Bytes} (hx : x.length = 16) (hy : y.length = 16) :
    blk (x ++ y) 1 = blockOfBytes y := by
  rw [blk, memRead, List.drop_left' hx, List.take_of_length_le hy.le]

/-- Settles O27: both loops are the one chaining loop, from the two chaining values in one order and the
other. -/
theorem igeDecIsTheEncLoopWithDAndExchangedHalves :
    Obligations.IgeDecIsTheEncLoopWithDAndExchangedHalves := by
  intro D iv data hiv
  have hdrop : (iv.drop 16).length = 16 := by simp [hiv]
  have htake : (iv.take 16).length = 16 := by simp [hiv]
  have hhalves := List.take_append_drop 16 iv
  have hfirst : blk iv 0 = blockOfBytes (iv.take 16) := by
    rw [← blk_append_zero htake (iv.drop 16), hhalves]
  have hsecond : blk iv 1 = blockOfBytes (iv.drop 16) := by
    rw [← blk_append_one htake hdrop, hhalves]
  rw [igeDecrypt_eq_chain, igeEncrypt_eq_chain, blk_append_zero hdrop, blk_append_one hdrop htake,
    hfirst, hsecond]

/-- Settles O28: the two last blocks that a message is continued from are the halves of the next IV. -/
theorem igeContinuesThroughTheIv : Obligations.IgeContinuesThroughTheIv := by
  intro s key iv a b ha0 ha hb0 hb hkey hiv
  have hab0 : (a ++ b).length ≠ 0 := by rw [List.length_append]; omega
  have hab : (a ++ b).length % 16 = 0 := by rw [List.length_append]; omega
  obtain ⟨hin, henc⟩ := length_drop_last (igeBlock (cipherE s.params.cipher key)) (blk iv 0)
    (blk iv 1) ha0 ha
  obtain ⟨-, hdec⟩ := length_drop_last (igeBlock (cipherD s.params.cipher key)) (blk iv 1)
    (blk iv 0) ha0 ha
  refine ⟨_, _, _, _, length_chain _ _ _ ha, length_chain _ _ _ ha, exec_igeEnc ha0 ha hkey hiv s,
    exec_igeEnc hb0 hb hkey (by rw [List.length_append, henc, hin]) s, ?_,
    exec_igeDec ha0 ha hkey hiv s,
    exec_igeDec hb0 hb hkey (by rw [List.length_append, hin, hdec]) s, ?_⟩
  · rw [exec_igeEnc hab0 hab hkey hiv, chain_continues _ _ _ ha0 ha hb, blk_append_zero henc,
      blk_append_one henc hin]
    rfl
  · rw [exec_igeDec hab0 hab hkey hiv, chain_continues _ _ _ ha0 ha hb, blk_append_zero hin,
      blk_append_one hin hdec]
    rfl

/-- Settles O32: of the two last blocks each mode uses the ciphertext block only. -/
theorem cbcContinuesThroughTheIv : Obligations.CbcContinuesThroughTheIv := by
  intro s key iv a b ha0 ha hb0 hb hkey hiv
  have hab0 : (a ++ b).length ≠ 0 := by rw [List.length_append]; omega
  have hab : (a ++ b).length % 16 = 0 := by rw [List.length_append]; omega
  have hblk {x : Bytes} (hx : x.length = 16) : blk x 0 = blockOfBytes x := by
    rw [← blk_append_zero hx [], List.append_nil]
  obtain ⟨hin, henc⟩ := length_drop_last (cbcEncBlock (cipherE s.params.cipher key)) (blk iv 0) 0
    ha0 ha
  refine ⟨_, _, _, _, exec_cbcEnc ha0 ha hkey hiv s 0,
    exec_cbcEnc hb0 hb hkey henc s (blockOfBytes (a.drop (a.length - 16))), ?_,
    exec_cbcDec ha0 ha hkey hiv s 0,
    exec_cbcDec hb0 hb hkey hin s (blockOfBytes ((chain (cbcDecBlock (cipherD s.params.cipher key)) 0
      (blk iv 0) a).drop (a.length - 16))), ?_⟩
  · rw [exec_cbcEnc hab0 hab hkey hiv s 0, chain_continues _ _ _ ha0 ha hb, hblk henc]
    rfl
  · rw [exec_cbcDec hab0 hab hkey hiv s 0, chain_continues _ _ _ ha0 ha hb, hblk hin]
    rfl

end Sys2Proof.Machine

/-! What a command can do, said once, and what a step can do: it keeps the parameters, sends at most one
legal response, and changes at most the one slot its command names (rules R36, R54, R103, R147). -/

namespace Sys2Proof.Machine

/-- The errors that a command's header and slot are the cause of have no result byte (rule R144). -/
theorem legal_of_error (op : Byte) {st : Status} (hok : st ≠ .ok) (hgave : st ≠ .notFactorable) :
    (⟨op, st, []⟩ : Reply).legal :=
  ⟨by simp, fun _ => rfl, fun h => absurd h hok, fun h => absurd h hgave⟩

/-- Rule R45: the data of a well-formed command is as short as a result may be (rule R52). -/
theorem length_data_lt_of_wellFormed {i : Instr} (hi : i.wellFormed = true) :
    i.data.length < 2 ^ 32 := by
  obtain ⟨-, -, hdata⟩ := i.wellFormed_iff.mp hi
  exact hdata

theorem legal_of_ok {op : Byte} {r : Bytes} (hlen : r.length < 2 ^ 32)
    (hok : okLength op r.length = true) : (⟨op, .ok, r⟩ : Reply).legal :=
  ⟨hlen, fun h => absurd rfl h, fun _ => hok, fun h => nomatch h⟩

/-- Rule R48: the four modes answer with as many whole blocks as their data has. -/
theorem legal_of_chain {m : Mnemonic} (hm : m = .igeEnc ∨ m = .igeDec ∨ m = .cbcEnc ∨ m = .cbcDec)
    (f : Block → Block → Block → Block) (o p : Block) {data : Bytes} (h0 : data.length ≠ 0)
    (h16 : data.length % 16 = 0) (hsize : data.length < 2 ^ 32) :
    (⟨opByte m, .ok, chain f o p data⟩ : Reply).legal := by
  have hlen := length_chain f o p h16
  refine legal_of_ok (by rwa [hlen]) ?_
  rw [hlen]
  obtain rfl | rfl | rfl | rfl := hm <;> simp [okLength, opByte, h0, h16]

/-- What a command can make of a state, whatever the command and the state. -/
inductive Effect (i : Instr) (s : State) : State → Prop where
  /-- An error of R141 to R143: its response and nothing else. -/
  | refused (st : Status) (hst : st = .illegalCommand ∨ st = .badContext ∨ st = .invalidLength) :
      Effect i s (s.raise (opByte i.mnemonic) st)
  /-- `OK` with a result, from a command that writes no slot. -/
  | answered (r : Bytes) (hr : i.wellFormed = true → (⟨opByte i.mnemonic, .ok, r⟩ : Reply).legal) :
      Effect i s (s.respond (opByte i.mnemonic) .ok r)
  /-- `OK` from one of the three commands that write the slot they name. -/
  | wrote (v w : Option CtrState) (r : Bytes)
      (hm : i.mnemonic = .ctrNew ∨ i.mnemonic = .ctrApply ∨ i.mnemonic = .ctrFree)
      (hslot : s.slot? i.ctxField = some v) (hchange : SlotChange i v w)
      (hr : i.wellFormed = true → (⟨opByte i.mnemonic, .ok, r⟩ : Reply).legal) :
      Effect i s ((s.setSlot i.ctxField w).respond (opByte i.mnemonic) .ok r)
  /-- A search of `FACTOR` with its outcome. -/
  | searched (hm : i.mnemonic = .factor) (o : FactorOutcome) (n : Nat)
      (hunit : s.params.hasFactorizer = true) (ho : o.Allowed s.params.factorBudget n) :
      Effect i s (s.afterSearch o)

/-- A command whose unit, slot and lengths are as it needs them has one of the effects without an
error. -/
theorem exec_effect_of_guards {i : Instr} {s : State} (hunit : i.unitOk s = true)
    (hslot : i.slotOk s = true) (hlen : i.lengthsOk = true) :
    ∃ t, exec i s = .next t ∧ Effect i s t := by
  cases i with
  | igeEnc key iv data =>
    obtain ⟨h0, h16, hkey, hiv⟩ := (igeLengthsOk_iff key iv data).mp hlen
    exact ⟨_, exec_igeEnc h0 h16 hkey hiv s,
      .answered _ fun hi =>
        legal_of_chain (.inl rfl) _ _ _ h0 h16 (length_data_lt_of_wellFormed hi)⟩
  | igeDec key iv data =>
    obtain ⟨h0, h16, hkey, hiv⟩ := (igeLengthsOk_iff key iv data).mp hlen
    exact ⟨_, exec_igeDec h0 h16 hkey hiv s,
      .answered _ fun hi =>
        legal_of_chain (.inr (.inl rfl)) _ _ _ h0 h16 (length_data_lt_of_wellFormed hi)⟩
  | cbcEnc key iv data =>
    obtain ⟨h0, h16, hkey, hiv⟩ := (cbcLengthsOk_iff key iv data).mp hlen
    exact ⟨_, exec_cbcEnc h0 h16 hkey hiv s 0,
      .answered _ fun hi =>
        legal_of_chain (.inr (.inr (.inl rfl))) _ _ _ h0 h16 (length_data_lt_of_wellFormed hi)⟩
  | cbcDec key iv data =>
    obtain ⟨h0, h16, hkey, hiv⟩ := (cbcLengthsOk_iff key iv data).mp hlen
    exact ⟨_, exec_cbcDec h0 h16 hkey hiv s 0,
      .answered _ fun hi =>
        legal_of_chain (.inr (.inr (.inr rfl))) _ _ _ h0 h16 (length_data_lt_of_wellFormed hi)⟩
  | ctrNew ctx iv =>
    have hfree := State.slot?_eq_of_validIs_false hslot
    have hiv := (ctrNewLengthOk_iff iv).mp hlen
    exact ⟨_, exec_ctrNew_of_free hfree hiv, .wrote none _ [] (.inl rfl) hfree (.created ctx iv hiv)
      fun _ => legal_of_ok (by simp) rfl⟩
  | ctrApply ctx key data =>
    obtain ⟨c, hlive⟩ := State.exists_slot?_eq_of_validIs_true hslot
    obtain ⟨hdata, hkey⟩ := (ctrApplyLengthsOk_iff key data).mp hlen
    refine ⟨_, exec_ctrApply_of_live hlive hkey hdata, .wrote (some c) _ _ (.inr (.inl rfl)) hlive
      ?_ fun hi => legal_of_ok ?_ ?_⟩
    · rw [ctrTransform_snd]
      exact .advanced ctx key data c hkey hdata
    · rw [length_ctrTransform]
      exact length_data_lt_of_wellFormed hi
    · rw [length_ctrTransform]
      simp [okLength, opByte, Instr.mnemonic, hdata]
  | ctrFree ctx =>
    obtain ⟨c, hlive⟩ := State.exists_slot?_eq_of_validIs_true hslot
    exact ⟨_, exec_ctrFree_of_live hlive, .wrote (some c) none [] (.inr (.inr rfl)) hlive
      (.destroyed ctx c) fun _ => legal_of_ok (by simp) rfl⟩
  | ctrRead ctx =>
    obtain ⟨c, hlive⟩ := State.exists_slot?_eq_of_validIs_true hslot
    refine ⟨_, exec_ctrRead_of_live hlive, .answered _ fun _ => legal_of_ok ?_ ?_⟩
    · simp [ctrReadout]
    · simp [ctrReadout, okLength, opByte, Instr.mnemonic]
  | factor data =>
    exact ⟨_, exec_factor_of_unit hunit ((factorLengthOk_iff data).mp hlen),
      .searched rfl _ _ hunit (factorOutcome_allowed _ _ _)⟩

/-- Every command has an effect in every state: nothing stops it (rules R147, R148). -/
theorem exec_effect (i : Instr) (s : State) : ∃ t, exec i s = .next t ∧ Effect i s t := by
  cases hunit : i.unitOk s with
  | false => exact ⟨_, exec_of_unitOk_false hunit, .refused _ (.inl rfl)⟩
  | true =>
    cases hslot : i.slotOk s with
    | false => exact ⟨_, exec_of_slotOk_false hslot, .refused _ (.inr (.inl rfl))⟩
    | true =>
      cases hlen : i.lengthsOk with
      | false =>
        exact ⟨_, exec_of_lengthsOk_false hunit hslot hlen, .refused _ (.inr (.inr rfl))⟩
      | true => exact exec_effect_of_guards hunit hslot hlen

namespace Effect

variable {i : Instr} {s t : State} (h : Effect i s t)
include h

theorem params_eq : t.params = s.params := by
  cases h with
  | refused | answered | wrote => rfl
  | searched hm o => exact s.afterSearch_params o

theorem command_eq : t.command = s.command := by
  cases h with
  | refused | answered | wrote => rfl
  | searched hm o => exact s.afterSearch_command o

theorem length_ctx_eq : t.ctx.length = s.ctx.length := by
  cases h with
  | refused | answered => rfl
  | wrote => exact s.length_ctx_setSlot _ _
  | searched hm o => rw [s.afterSearch_ctx o]

/-- Rules R54, R124: one response with the command's opcode, which is legal if the command is well
formed; only a `FACTOR` may go into an endless search, and then sends none. -/
theorem response_cases :
    (t.searching = s.searching ∧
        ∃ st r, t.response = s.response ++ responsePacket (opByte i.mnemonic) st r ∧
          (i.wellFormed = true → (⟨opByte i.mnemonic, st, r⟩ : Reply).legal)) ∨
      (i.mnemonic = .factor ∧ t.searching = true ∧ t.response = s.response) := by
  cases h with
  | refused st hst =>
    refine .inl ⟨rfl, st, [], rfl, fun _ => legal_of_error _ ?_ ?_⟩ <;>
      (rintro rfl; simp at hst)
  | answered r hr => exact .inl ⟨rfl, .ok, r, rfl, hr⟩
  | wrote v w r hm hslot hchange hr => exact .inl ⟨rfl, .ok, r, rfl, hr⟩
  | searched hm o n hunit ho =>
    rw [hm]
    cases o with
    | pair p q =>
      have hlen := length_factorResult p q
      refine .inl ⟨rfl, .ok, factorResult p q, rfl, fun _ => legal_of_ok ?_ ?_⟩
      · rw [hlen]
        norm_num
      · rw [hlen]
        rfl
    | notFactorable =>
      exact .inl ⟨rfl, .notFactorable, [], rfl, fun _ =>
        ⟨by simp, fun _ => rfl, fun hok => (nomatch hok), fun _ => rfl⟩⟩
    | neverCompletes => exact .inr ⟨rfl, rfl, rfl⟩

/-- Rule R125: `NotFactorable` comes from a search with a finite budget. -/
theorem of_notFactorable {op : Byte} {r : Bytes}
    (hresponse : t.response = s.response ++ responsePacket op .notFactorable r) :
    op = 0x09 ∧ r = [] ∧ s.params.hasFactorizer = true ∧ s.params.factorBudget.isSome = true := by
  cases h with
  | refused st hst =>
    obtain ⟨-, rfl, -⟩ := response_eq_inj hresponse
    simp at hst
  | answered r' =>
    obtain ⟨-, hok, -⟩ := response_eq_inj hresponse
    cases hok
  | wrote v w r' =>
    obtain ⟨-, hok, -⟩ := response_eq_inj hresponse
    cases hok
  | searched hm o n hunit ho =>
    cases o with
    | pair p q =>
      obtain ⟨-, hok, -⟩ := response_eq_inj hresponse
      cases hok
    | notFactorable =>
      obtain ⟨hop, -, hr⟩ := response_eq_inj hresponse
      exact ⟨hop.symm, hr.symm, hunit, ho⟩
    | neverCompletes => exact absurd hresponse (append_responsePacket_ne _ _ _ _)

/-- Rules R12, R36, R103: either no slot is written, or the one that the command names is changed as the
command may. -/
theorem ctx_cases :
    t.ctx = s.ctx ∨
      (i.mnemonic = .ctrNew ∨ i.mnemonic = .ctrApply ∨ i.mnemonic = .ctrFree) ∧
        ∃ v w, s.slot? i.ctxField = some v ∧ SlotChange i v w ∧
          t.ctx = s.ctx.set i.ctxField.toNat w := by
  cases h with
  | refused | answered => exact .inl rfl
  | wrote v w r hm hslot hchange => exact .inr ⟨hm, v, w, hslot, hchange, rfl⟩
  | searched hm o => exact .inl (s.afterSearch_ctx o)

/-- Every slot but the one that the command names stays as it was. -/
theorem getElem?_ctx_of_ne {j : Nat} (hj : j ≠ i.ctxField.toNat) : t.ctx[j]? = s.ctx[j]? := by
  obtain heq | ⟨-, v, w, -, -, heq⟩ := h.ctx_cases
  · rw [heq]
  · rw [heq, List.getElem?_set_ne hj.symm]

/-- The slot that the command names changes as the command may. -/
theorem slotChange {v w : Option CtrState} (hv : s.ctx[i.ctxField.toNat]? = some v)
    (hw : t.ctx[i.ctxField.toNat]? = some w) : SlotChange i v w := by
  obtain heq | ⟨-, v', w', hslot, hchange, heq⟩ := h.ctx_cases
  · rw [heq, hv, Option.some.injEq] at hw
    exact hw ▸ .kept i v
  · have hv' : v' = v := Option.some.inj (hslot.symm.trans hv)
    rw [heq, List.getElem?_set_self (State.lt_of_slot?_eq_some hslot), Option.some.injEq] at hw
    exact hv' ▸ hw ▸ hchange

end Effect

/-- What a step can do: wait, answer an illegal packet, or run the command at the port, with its
effect. -/
theorem step_effect (s : State) :
    step s = .next s ∨
      (∃ op rest, step s = .next ((s.consumeTo rest).raise op .illegalCommand)) ∨
      ∃ i rest t, s.searching = false ∧ decode s.command = .command i rest ∧ step s = .next t ∧
        Effect i (s.consumeTo rest) t := by
  obtain h | ⟨op, -, rest, -, -, h⟩ | ⟨i, rest, hs, hport, h⟩ := step_cases s
  · exact .inl h
  · exact .inr (.inl ⟨op, rest, h⟩)
  · obtain ⟨t, hexec, heffect⟩ := exec_effect i (s.consumeTo rest)
    exact .inr (.inr ⟨i, rest, t, hs, hport, h.trans hexec, heffect⟩)

/-- Settles O8: the packet's bytes are taken off and the command is run. -/
theorem stepRunsTheDecodedCommand : Obligations.StepRunsTheDecodedCommand :=
  fun _ _ _ => step_of_command

/-- Settles O9: what the host has sent decodes to the command, and the step runs it. -/
theorem stepExecutesTheEncodedCommand : Obligations.StepExecutesTheEncodedCommand := by
  intro s i rest hs hi hcommand
  exact step_of_command hs (by rw [hcommand, decodeEncodeRoundTrip i rest hi])

/-- Settles O10, by what a step can do. -/
theorem stepNeverFaultsOrRefuses : Obligations.StepNeverFaultsOrRefuses := by
  intro s
  obtain h | ⟨_, _, h⟩ | ⟨_, _, t, -, -, h, -⟩ := step_effect s
  · exact ⟨_, h⟩
  · exact ⟨_, h⟩
  · exact ⟨_, h⟩

/-- Settles O11: a packet that spells a command is answered as its effect says, any other with
`IllegalCommand`. -/
theorem stepConsumesOnePacketAndAnswersOnce : Obligations.StepConsumesOnePacketAndAnswersOnce := by
  intro s p rest hat
  have hidle : s.searching = false := hat.1
  cases hread : readPacket p with
  | error why =>
    exact ⟨_, step_of_atPacket_error hat hread, rfl, fun _ => ⟨.illegalCommand, [], rfl⟩,
      fun h => by simp [hidle] at h⟩
  | ok i =>
    obtain ⟨m, hm, -, rfl⟩ := exists_commandOf_of_readPacket hread
    rw [op_eq_opByte_mnemonic_commandOf hm]
    obtain ⟨t, hexec, heffect⟩ := exec_effect (commandOf m p) (s.consumeTo rest)
    refine ⟨t, (step_of_atPacket_ok hat hread).trans hexec, heffect.command_eq, ?_⟩
    obtain ⟨hsearch, st, r, hresponse, -⟩ | ⟨hfactor, hsearch, hresponse⟩ := heffect.response_cases
    · exact ⟨fun _ => ⟨st, r, hresponse⟩, fun h => by simp [hsearch, hidle] at h⟩
    · exact ⟨fun h => by simp [hsearch] at h, fun _ => ⟨by rw [hfactor]; rfl, hresponse⟩⟩

/-- Rule R57: without 8 bytes there is no header. -/
theorem readHeader_of_short {bs : Bytes} (h : bs.length < 8) : readHeader bs = none := by
  unfold readHeader
  split
  · simp only [List.length_cons] at h
    omega
  · rfl

/-- Rule R57: a header is not enough while payload bytes are missing. -/
theorem receivePacket_of_short_payload {h : Header} {got : Bytes}
    (hshort : got.length < payloadLength h) : receivePacket (headerBytes h ++ got) = none := by
  simp only [receivePacket, headerBytes, readHeader_fields, BitVec.ofNat_toNat, BitVec.setWidth_eq]
  exact if_pos hshort

/-- Settles O12: no packet is received from a part of one. -/
theorem incompletePacketWaits : Obligations.IncompletePacketWaits := by
  rintro s - (hshort | ⟨h, got, hcommand, hshort⟩)
  · refine step_of_incomplete (decode_eq_incomplete_iff.mpr ?_)
    rw [receivePacket, readHeader_of_short hshort]
  · refine step_of_incomplete (decode_eq_incomplete_iff.mpr ?_)
    rw [hcommand, receivePacket_of_short_payload hshort]

/-- Settles O13: what the host sends changes the command port only. -/
theorem engineThatSearchesForeverAnswersNothing :
    Obligations.EngineThatSearchesForeverAnswersNothing :=
  fun s bs h => step_of_searching ((s.hostSend_searching bs).trans h)

/-- Settles O17: what no command touches, no step does. -/
theorem stepKeepsBuildParametersAndSentBytes : Obligations.StepKeepsBuildParametersAndSentBytes := by
  intro s t hstep
  obtain h | ⟨op, _, h⟩ | ⟨i, rest, t', -, -, h, heffect⟩ := step_effect s
  · cases h.symm.trans hstep
    exact ⟨rfl, rfl, [], by simp⟩
  · cases h.symm.trans hstep
    exact ⟨rfl, rfl, _, rfl⟩
  · cases h.symm.trans hstep
    refine ⟨heffect.params_eq, heffect.length_ctx_eq, ?_⟩
    obtain ⟨-, st, r, hresponse, -⟩ | ⟨-, -, hresponse⟩ := heffect.response_cases
    · exact ⟨_, hresponse⟩
    · exact ⟨[], by simp [hresponse]⟩

/-- Settles O48: an illegal packet is answered with another status, and among the commands only a search
gives up. -/
theorem notFactorableNeedsAFiniteBudget : Obligations.NotFactorableNeedsAFiniteBudget := by
  intro s t op r hstep hresponse
  obtain h | ⟨_, _, h⟩ | ⟨_, _, _, -, -, h, heffect⟩ := step_effect s
  · cases h.symm.trans hstep
    exact absurd hresponse (append_responsePacket_ne _ _ _ _)
  · cases h.symm.trans hstep
    obtain ⟨-, hillegal, -⟩ := response_eq_inj hresponse
    cases hillegal
  · cases h.symm.trans hstep
    exact heffect.of_notFactorable hresponse

/-- One more legal response. -/
theorem ResponsesLegal.append {bs : Bytes} (h : ResponsesLegal bs) {r : Reply} (hr : r.legal) :
    ResponsesLegal (bs ++ responsePacket r.op r.status r.result) := by
  obtain ⟨rs, hrs, rfl⟩ := h
  refine ⟨rs ++ [r], fun r' hr' => ?_, by simp⟩
  obtain hold | hnew := List.mem_append.mp hr'
  · exact hrs r' hold
  · exact List.mem_singleton.mp hnew ▸ hr

/-- Rules R52 to R54: a step sends nothing or one legal response. -/
theorem step_response {s t : State} (hstep : step s = .next t) :
    t.response = s.response ∨
      ∃ r : Reply, r.legal ∧ t.response = s.response ++ responsePacket r.op r.status r.result := by
  obtain h | ⟨op, _, h⟩ | ⟨i, rest, _, -, hport, h, heffect⟩ := step_effect s
  · cases h.symm.trans hstep
    exact .inl rfl
  · cases h.symm.trans hstep
    exact .inr ⟨⟨op, .illegalCommand, []⟩, legal_of_error op (by simp) (by simp), rfl⟩
  · cases h.symm.trans hstep
    obtain ⟨-, st, r, hresponse, hlegal⟩ | ⟨-, -, hresponse⟩ := heffect.response_cases
    · exact .inr ⟨_, hlegal (wellFormed_of_decode hport), hresponse⟩
    · exact .inl hresponse

/-- Settles O20: the reset state has one slot more than a number below 256, and nothing sent. -/
theorem resetMeetsTheInvariant : Obligations.ResetMeetsTheInvariant := by
  have hlt := Config.nCtxLessOne.isLt
  have hlen : State.reset.ctx.length = Config.nCtxLessOne.val + 1 := State.reset_ctx_length
  exact ⟨by omega, by omega, [], by simp, rfl⟩

/-- Settles O21: a step keeps the number of slots and sends at most one response, a legal one. -/
theorem stepKeepsTheInvariant : Obligations.StepKeepsTheInvariant := by
  rintro s t ⟨hmin, hmax, hlegal⟩ hstep
  obtain ⟨-, hlen, -⟩ := stepKeepsBuildParametersAndSentBytes s t hstep
  refine ⟨hlen ▸ hmin, hlen ▸ hmax, ?_⟩
  obtain hsame | ⟨r, hr, hsent⟩ := step_response hstep
  · exact hsame ▸ hlegal
  · exact hsent ▸ hlegal.append hr

/-- A slot file that stays as it was, in the terms of O22. -/
theorem slots_kept {s t : State} (hctx : t.ctx = s.ctx) (i : Instr) :
    (∀ j : Nat, j ≠ i.ctxField.toNat → t.ctx[j]? = s.ctx[j]?) ∧
      ∀ v w : Option CtrState, s.ctx[i.ctxField.toNat]? = some v →
        t.ctx[i.ctxField.toNat]? = some w → SlotChange i v w := by
  rw [hctx]
  refine ⟨fun _ _ => rfl, fun v w hv hw => ?_⟩
  obtain rfl : v = w := Option.some.inj (hv.symm.trans hw)
  exact .kept i v

/-- Settles O22: a step that waits or refuses a packet writes no slot, and one that runs a command has
the command's effect. -/
theorem slotsAreCreatedAdvancedOrDestroyedOneAtATime :
    Obligations.SlotsAreCreatedAdvancedOrDestroyedOneAtATime := by
  intro s t hstep
  obtain ⟨-, hlen, -⟩ := stepKeepsBuildParametersAndSentBytes s t hstep
  refine ⟨hlen, ?_⟩
  obtain h | ⟨_, _, h⟩ | ⟨i, rest, _, hidle, hport, h, heffect⟩ := step_effect s
  · cases h.symm.trans hstep
    exact ⟨fun i _ _ => slots_kept rfl i, fun _ => rfl⟩
  · cases h.symm.trans hstep
    exact ⟨fun i _ _ => slots_kept rfl i, fun _ => rfl⟩
  · cases h.symm.trans hstep
    constructor
    · intro i' rest' hport'
      cases hport.symm.trans hport'
      exact ⟨fun _ => heffect.getElem?_ctx_of_ne, fun _ _ => heffect.slotChange⟩
    · intro hno
      obtain hsame | ⟨hm, -⟩ := heffect.ctx_cases
      · exact hsame
      · obtain hsearch | hnone := hno
        · simp [hidle] at hsearch
        · obtain ⟨hnew, happly, hfree⟩ := hnone i rest hport
          simp [hnew, happly, hfree] at hm

/-- Settles O19, field by field. -/
theorem hostResetInvalidatesEverySlot : Obligations.HostResetInvalidatesEverySlot :=
  fun _ => ⟨fun _ => List.eq_of_mem_replicate, List.length_replicate, rfl, rfl, rfl, rfl⟩

/-- Settles O54: a step of the system puts the engine's own step in its place. -/
theorem enginesShareNothing : Obligations.EnginesShareNothing := by
  intro y k s hk
  obtain ⟨t, hstep⟩ := stepNeverFaultsOrRefuses s
  have hthere : k < y.engines.length := (List.getElem?_eq_some_iff.mp hk).1
  refine ⟨t, ⟨y.engines.set k t⟩, hstep, by simp [stepEngine, hk, hstep],
    List.getElem?_set_self hthere, List.length_set, fun j hj => List.getElem?_set_ne hj.symm⟩

end Sys2Proof.Machine

/-! AES-256 against the spec's tables and check values (rules R131, R132, R136). -/

namespace Sys2Proof.Machine

/-- The inverse in GF(2^8) of the byte that the S-box sends to `y`: the S-box's affine map, undone. -/
def invAffine (y : Byte) : Byte := y.rotateLeft 1 ^^^ y.rotateLeft 3 ^^^ y.rotateLeft 6 ^^^ 0x05

/-- The affine map of rule R131 undoes `invAffine`, bit by bit. -/
theorem affine_invAffine (y : Byte) (i : Fin 8) :
    y.getLsbD i.val =
      ((invAffine y).getLsbD i.val ^^ (invAffine y).getLsbD ((i.val + 4) % 8) ^^
        (invAffine y).getLsbD ((i.val + 5) % 8) ^^ (invAffine y).getLsbD ((i.val + 6) % 8) ^^
        (invAffine y).getLsbD ((i.val + 7) % 8) ^^ (0x63 : Byte).getLsbD i.val) := by
  revert y i
  decide +kernel

/-- Rule R131: behind its affine map the S-box is the inverse, of every byte but 0. -/
theorem gfMul_invAffine_sbox (a : Byte) : a ≠ 0 → gfMul a (invAffine (sbox a)) = 1 := by
  revert a
  decide +kernel

theorem invAffine_sbox_zero : invAffine (sbox 0) = 0 := by decide

/-- Settles O52: the inverse is what the affine map, undone, makes of the S-box's byte. -/
theorem sboxIsTheAffineMapOfTheInverse : Obligations.SboxIsTheAffineMapOfTheInverse :=
  fun a => ⟨invSbox_sbox a, invAffine (sbox a), fun h => h ▸ invAffine_sbox_zero,
    gfMul_invAffine_sbox a, affine_invAffine (sbox a)⟩

/-- Settles O51, each value by running the cipher. -/
theorem aesCheckValues : Obligations.AesCheckValues := by
  refine ⟨?_, ?_, ?_, ?_, ?_, ?_, ?_, ?_, ?_⟩ <;> decide +kernel

/-- Settles O53, each value by running the key expansion. -/
theorem keyScheduleCheckValues : Obligations.KeyScheduleCheckValues := by
  refine ⟨?_, ?_, ?_, ?_⟩ <;> decide +kernel

end Sys2Proof.Machine
